-- ==== Sys2Proof/Word.lean ====
section
/-! DEFINITION. The two widths of the block: an 8-bit cell (R18, R19, parameter `CELLW`) and a 32-bit register
(R10, parameter `REGW`). -/

namespace Sys2Proof

/-- One cell of `IBUF` or `OBUF`, and one symbol of GF(2^8) (R18, R19, R90). -/
abbrev Byte := BitVec 8

/-- One host-visible register, and one command word (R10, R45). -/
abbrev Word := BitVec 32

end Sys2Proof
end

