-- ==== Sys2Proof/Config.lean ====
section
/-! DEFINITION. What an instance of the block fixes (R5, R17) and the free values: what the spec leaves unspecified
(R19, R26, R167). -/

namespace Sys2Proof

/-- The two instance parameters that R5 leaves open within a range. Every other parameter of R5 has one legal value
and stands in the definitions that use it. -/
structure Params where
  /-- `NSYM`, the number of Reed-Solomon parity symbols. -/
  nsym : Nat
  /-- `BUFSZ`, the number of cells of `IBUF` and of `OBUF`. -/
  bufsz : Nat
deriving DecidableEq, Repr

/-- The defaults of R5. -/
def Params.default : Params := { nsym := 10, bufsz := 512 }

/-- `T = floor(NSYM / 2)` (R5). -/
def Params.t (p : Params) : Nat := p.nsym / 2

/-- `NMAX`, the longest Reed-Solomon codeword: 2^8 - 1 (R5). -/
def nmax : Nat := 255

/-- FREE VALUE (log 3). What `IBUF[i]` holds before the host has written it, after the platform's `epoch`-th reset:
any byte, fixed for that cell until it is written (R26, R166, R167; 93_implementation_defined.md U2, U3). -/
opaque Config.ibufPowerUp : (epoch : Nat) → (i : Nat) → Byte

/-- FREE VALUE (log 4). What `OBUF[i]` holds after the platform's `epoch`-th reset, until a command ends: any byte,
fixed for that cell (R26, R166; 93_implementation_defined.md U2). -/
opaque Config.obufPowerUp : (epoch : Nat) → (i : Nat) → Byte

/-- FREE VALUE (log 4). What the `draw`-th host read of an `OBUF` cell that the last command left unspecified returns:
any byte, on each read anew (R19, R32, R152; 93_implementation_defined.md U1). -/
opaque Config.obufDraw : (draw : Nat) → Byte

/-- FREE VALUE (log 7). What a survivor bit that no add-compare-select has decided would read as; R23 says that such
an entry is never read. -/
opaque Config.survUndecided : Bool

end Sys2Proof
end

