-- ==== Sys2Proof/Syntax.lean ====
section
/-! DEFINITION. The six commands of the opcode table, and the host accesses that start them. -/

namespace Sys2Proof

/-- The commands of R46, one for each row of spec/opcode_table.json. No command carries an operand (R47). -/
inductive Instr where
  /-- `HAM_ENC`, R61. -/
  | hamEnc
  /-- `HAM_DEC`, R63. -/
  | hamDec
  /-- `CONV_ENC`, R72. -/
  | convEnc
  /-- `VIT_DEC`, R78. -/
  | vitDec
  /-- `RS_ENC`, R106. -/
  | rsEnc
  /-- `RS_DEC`, R108. -/
  | rsDec
deriving DecidableEq, Repr

/-- The two cell spaces of R30; the third space, `REG`, has accesses of its own. -/
inductive Space where
  | ibuf
  | obuf
deriving DecidableEq, Repr

/-- What reaches the block from outside: the four access primitives of R8, each of one whole element (R31), and the
platform's reset (R165; log 13). -/
inductive HostAction where
  /-- `RegRead(n)`. -/
  | regRead (n : Nat)
  /-- `RegWrite(n, v)`. -/
  | regWrite (n : Nat) (v : Word)
  /-- `MemRead(IBUF+i, 1)` or `MemRead(OBUF+i, 1)`. -/
  | memRead (sp : Space) (i : Nat)
  /-- `MemWrite(IBUF+i, 1, v)` or `MemWrite(OBUF+i, 1, v)`. -/
  | memWrite (sp : Space) (i : Nat) (v : Byte)
  /-- The platform's reset. -/
  | reset
deriving DecidableEq, Repr

end Sys2Proof
end

