-- ==== Sys2Proof/WellFormed.lean ====
section
/-! DEFINITION. The checks on terms: legal parameters (R5), accesses inside the index ranges (R30, R36), and commands
(which have no operand that could be ill-formed, R47). -/

namespace Sys2Proof

/-- The legal ranges of R5: `NSYM` 1 to 254; `BUFSZ` even, 256 to 65534. -/
def Params.legal (p : Params) : Bool :=
  decide (1 ≤ p.nsym) && decide (p.nsym ≤ 254) && decide (p.bufsz % 2 = 0) && decide (256 ≤ p.bufsz)
    && decide (p.bufsz ≤ 65534)

/-- A command has no operand, so every command is well formed (R47). -/
def Instr.wellFormed : Instr → Bool
  | .hamEnc => true
  | .hamDec => true
  | .convEnc => true
  | .vitDec => true
  | .rsEnc => true
  | .rsDec => true

/-- The index ranges of R30: registers 0 to 4, cells 0 to `BUFSZ - 1`. -/
def HostAction.inRange (p : Params) : HostAction → Bool
  | .regRead n => decide (n ≤ 4)
  | .regWrite n _ => decide (n ≤ 4)
  | .memRead _ i => decide (i < p.bufsz)
  | .memWrite _ i _ => decide (i < p.bufsz)
  | .reset => true

end Sys2Proof
end

