-- ==== Sys2Proof/Decode.lean ====
section
/-! DEFINITION. The decoder of command words, total on every 32-bit word (R45, R46, R48, R49), and the encoder. -/

namespace Sys2Proof

/-- Why a word is no command (R48). -/
inductive DecodeReject where
  /-- `RSV` is not 0, whatever `OPC` is. -/
  | reservedNotZero (rsv : BitVec 24)
  /-- `OPC` is 0x00 or 0x07 to 0xFF. -/
  | unknownOpcode (opc : BitVec 8)
deriving DecidableEq, Repr

/-- Field `OPC`, bits [7:0] (R13, R45). -/
def opcField (w : Word) : BitVec 8 := w.extractLsb' 0 8

/-- Field `RSV`, bits [31:8] (R45). -/
def rsvField (w : Word) : BitVec 24 := w.extractLsb' 8 24

/-- The opcode map of R46, read from left to right. -/
def instrOfOpcode (c : BitVec 8) : Option Instr :=
  match c.toNat with
  | 1 => some .hamEnc
  | 2 => some .hamDec
  | 3 => some .convEnc
  | 4 => some .vitDec
  | 5 => some .rsEnc
  | 6 => some .rsDec
  | _ => none

/-- The decoder of R45 and R48: the whole word is matched. -/
def decode (w : Word) : Except DecodeReject Instr :=
  if rsvField w = 0 then
    match instrOfOpcode (opcField w) with
    | some i => .ok i
    | none => .error (.unknownOpcode (opcField w))
  else .error (.reservedNotZero (rsvField w))

/-- The opcode map of R46, read from right to left. -/
def opcodeOf : Instr → BitVec 8
  | .hamEnc => 0x01
  | .hamDec => 0x02
  | .convEnc => 0x03
  | .vitDec => 0x04
  | .rsEnc => 0x05
  | .rsDec => 0x06

/-- The command word of an instruction: `RSV = 0` and its opcode (R45, R46). -/
def encode (i : Instr) : Word := (0 : BitVec 24) ++ opcodeOf i

/-- The instruction the decoder reads from an instruction whose low `nbits` bits are those of `w` and whose other
bits are 0. A command is one 32-bit element (R31, R49), so bits above 31 make it no command. -/
def decodeTableWord (nbits w : Nat) : Option Instr :=
  if w % 2 ^ nbits < 2 ^ 32 then
    match decode (BitVec.ofNat 32 (w % 2 ^ nbits)) with
    | .ok i => some i
    | .error _ => none
  else none

end Sys2Proof
end

