-- ==== Sys2Proof/Machine/State.lean ====
section
/-! DEFINITION. The state of the block (R10), the reasons a step can end without a next state, and reset (R26, R165,
R166). -/

namespace Sys2Proof.Machine

/-- The four outcomes of a command that `STATUS.ERR` can hold (R145); the codes 4 to 15 are never produced (R14). -/
inductive ErrCode where
  /-- Code 0. -/
  | ok
  /-- Code 1, R146. -/
  | invalidInput
  /-- Code 2, R147. -/
  | uncorrectable
  /-- Code 3, R148. -/
  | illegalCmd
deriving DecidableEq, Repr

/-- The cells of a buffer that hold a specified value, as pairs of index and byte. Canonical form: indices strictly
rising (`Memory.wf` of Ops.lean). A cell that is not listed holds no specified value (`Memory.unlisted`). -/
abbrev Memory := List Host.Cell

/-- A trellis state, the value of the shift register `SR`: `s0` is the most recent input bit, `s1` the one before it
(R21). -/
structure ConvState where
  s0 : Bool
  s1 : Bool
deriving DecidableEq, Repr

/-- One value for each of the four trellis states, named as R21 names them. -/
structure Quad (α : Type) where
  s00 : α
  s01 : α
  s10 : α
  s11 : α
deriving DecidableEq, Repr

/-- The working state of `reed_solomon_decoder` (R24). -/
structure RsScratch where
  /-- `S[0..NSYM-1]` of R110. -/
  syndromes : List Byte
  /-- The locator of R111, lowest degree first, at most `T + 1` symbols. -/
  locator : List Byte
  /-- The evaluator of R113, lowest degree first, at most `NSYM` symbols. -/
  evaluator : List Byte
  /-- `POS` of R112, at most `T` error positions. -/
  positions : List Nat
deriving DecidableEq, Repr

/-- The codec-internal state of R21 to R24, which no host access reaches. -/
structure Internals where
  /-- `SR` (R21). -/
  sr : ConvState
  /-- `PM` and `REACH` (R22): the 16-bit metric of a reachable state, `none` for a state with `REACH = 0` (log 6). -/
  metrics : Quad (Option (BitVec 16))
  /-- `SURV` (R23), row `t` at list index `t`; `none` is a bit no add-compare-select has decided (log 7). -/
  surv : List (Quad (Option Bool))
  /-- `PAR` (R24, R107). -/
  par : List Byte
  /-- The decoder's scratch (R24). -/
  rs : RsScratch
deriving DecidableEq, Repr

/-- What a host read returned: a register word or a cell (R31). -/
inductive HostAnswer where
  | word (v : Word)
  | cell (v : Byte)
deriving DecidableEq, Repr

/-- Reasons to stop with a fault. There are none: every command ends on every input (R169) and no error halts, hangs
or disables the block (R152); the errors of the spec are outcomes in `STATUS`, which are next states (log 14). -/
inductive Fault where
deriving DecidableEq, Repr

/-- Reasons to refuse. -/
inductive Refusal where
  /-- Raised by an arm of `exec` for an instruction that has no meaning yet; no arm does so now. Safe. -/
  | notModelled (mnemonic : String)
  /-- Raised by the step for a host access outside the index ranges of R30: R36 leaves it undefined and has a model
  refuse it (log 12). Safe: no claim about such a run can be proved. -/
  | accessOutOfRange (a : HostAction)
deriving DecidableEq, Repr

/-- The state. The fields from `cfg` to `inner` are the spec's (R10); the last five are the model's own. -/
structure State where
  /-- The instance parameters, of which `CFG` is the register view (R17; log 5). -/
  cfg : Params
  /-- `CMD.OPC` (R13). -/
  opc : BitVec 8
  /-- `STATUS.ERR` (R14). -/
  err : ErrCode
  /-- `STATUS.ERRPOS` (R14). -/
  errpos : BitVec 4
  /-- `ILEN.LEN` (R15). -/
  ilen : BitVec 16
  /-- `OLEN.LEN` (R16). -/
  olen : BitVec 16
  /-- The cells of `IBUF` that the host has written since reset (R18). -/
  ibuf : Memory
  /-- The cells of `OBUF` that hold the last command's result (R19). -/
  obuf : Memory
  /-- The codec-internal state (R21 to R24). -/
  inner : Internals
  /-- MODEL'S OWN (logs 3, 4): how many platform resets have happened. -/
  epoch : Nat
  /-- MODEL'S OWN (log 4): whether a write to `CMD` has ended since reset. Until then an `OBUF` cell is unspecified but
  fixed (U2). -/
  commanded : Bool
  /-- MODEL'S OWN (log 4): how many reads of `OBUF` cells left unspecified by a command have happened. -/
  draws : Nat
  /-- MODEL'S OWN (log 1): the accesses the host has yet to issue, in order (R39). -/
  pending : List HostAction
  /-- MODEL'S OWN (log 1): what the last access returned, if it was a read. -/
  answer : Option HostAnswer
deriving DecidableEq, Repr

/-- The scratch at the start of every `RS_DEC`: all 0, no position (R24, R166). -/
def RsScratch.init (p : Params) : RsScratch :=
  { syndromes := List.replicate p.nsym 0
    locator := List.replicate (p.t + 1) 0
    evaluator := List.replicate p.nsym 0
    positions := [] }

/-- The internal state after reset (R166): `SR = 00`, `REACH = (1,0,0,0)`, `PM[0] = 0`, `SURV` unspecified; `PAR` and
the scratch 0 (DESIGN CHOICE, log 9). -/
def Internals.init (p : Params) : Internals :=
  { sr := { s0 := false, s1 := false }
    metrics := { s00 := some 0, s01 := none, s10 := none, s11 := none }
    surv := List.replicate (p.bufsz / 2) { s00 := none, s01 := none, s10 := none, s11 := none }
    par := List.replicate p.nsym 0
    rs := RsScratch.init p }

/-- The state right after reset of an instance with parameters `p` (R26, R166). -/
def State.resetOf (p : Params) : State :=
  { cfg := p
    opc := 0
    err := .ok
    errpos := 0
    ilen := 0
    olen := 0
    ibuf := []
    obuf := []
    inner := Internals.init p
    epoch := 0
    commanded := false
    draws := 0
    pending := []
    answer := none }

/-- The state right after reset, with the default parameters of R5. -/
def State.reset : State := State.resetOf Params.default

end Sys2Proof.Machine
end

