-- ==== Sys2Proof/Machine/Flags.lean ====
section
/-! DEFINITION. The two status flags (R14, R20) and the register words that the fields make up (R13 to R17). -/

namespace Sys2Proof.Machine

/-- The number of an outcome in `STATUS.ERR` (R145). -/
def ErrCode.code : ErrCode → BitVec 4
  | .ok => 0
  | .invalidInput => 1
  | .uncorrectable => 2
  | .illegalCmd => 3

/-- `CMD` as read: `zext_32(OPC)` (R13). -/
def State.cmdWord (s : State) : Word := (0 : BitVec 24) ++ s.opc

/-- `STATUS` as read: `ERR` [3:0], `ERRPOS` [7:4], the rest 0 (R14). -/
def State.statusWord (s : State) : Word := (0 : BitVec 24) ++ s.errpos ++ s.err.code

/-- `ILEN` as read: `LEN` [15:0], the rest 0 (R15). -/
def State.ilenWord (s : State) : Word := (0 : BitVec 16) ++ s.ilen

/-- `OLEN` as read: `LEN` [15:0], the rest 0 (R16). -/
def State.olenWord (s : State) : Word := (0 : BitVec 16) ++ s.olen

/-- `CFG` as read: `NSYM` [7:0], `T` [15:8], `BUFSZ` [31:16] (R17). -/
def State.cfgWord (s : State) : Word :=
  BitVec.ofNat 16 s.cfg.bufsz ++ BitVec.ofNat 8 s.cfg.t ++ BitVec.ofNat 8 s.cfg.nsym

end Sys2Proof.Machine
end

