-- ==== Sys2Proof/Machine/Ops.lean ====
section
/-! DEFINITION. The named operations over the buffers and the registers, and the two ways a command ends: with a
result (last lines of R52) and with an error (R152). -/

namespace Sys2Proof.Machine

/-- What a cell that is not listed holds: no specified value (R19, R26). -/
def Memory.unlisted : Option Byte := none

/-- The specified value of cell `i`, if it has one. -/
def Memory.read : Memory → Nat → Option Byte
  | [], _ => Memory.unlisted
  | (a, b) :: m, i => if a = i then some b else Memory.read m i

/-- Cell `i` holds `v` from now on. Keeps the indices strictly rising. -/
def Memory.write : Memory → Nat → Byte → Memory
  | [], i, v => [(i, v)]
  | (a, b) :: m, i, v =>
    if i < a then (i, v) :: (a, b) :: m
    else if i = a then (i, v) :: m
    else (a, b) :: Memory.write m i v

/-- The cells `k, k+1, ...` hold the elements of a sequence, in order (R33); no other cell is listed. -/
def Memory.ofSeqFrom : Nat → List Byte → Memory
  | _, [] => []
  | k, b :: bs => (k, b) :: Memory.ofSeqFrom (k + 1) bs

/-- A sequence in cells `0, 1, ...`, first element in cell 0 (R33). -/
def Memory.ofSeq (l : List Byte) : Memory := Memory.ofSeqFrom 0 l

/-- The canonical form: indices strictly rising, and no entry equal to what an unlisted cell holds (which no entry
can be: an entry is a specified value). -/
def Memory.wf : Memory → Bool
  | [] => true
  | [e] => decide (some e.2 ≠ Memory.unlisted)
  | e :: f :: m => decide (e.1 < f.1) && decide (some e.2 ≠ Memory.unlisted) && Memory.wf (f :: m)

/-- Every listed cell exists: its index is below `n`. -/
def Memory.below (n : Nat) (m : Memory) : Bool := m.all fun e => decide (e.1 < n)

/-- What `IBUF[i]` holds: the byte the host wrote, or the free value of a cell not written since reset (R18, R167;
log 3). -/
def State.ibufCell (s : State) (i : Nat) : Byte := (s.ibuf.read i).getD (Config.ibufPowerUp s.epoch i)

/-- A host read of `OBUF[i]`: the byte it returns, and the state, in which only the model's counter of free draws can
differ (R32; log 4). A specified cell gives its byte. Any other gives a free value: since reset and before any command
the one fixed for that cell (R26, R166, U2), after a command one drawn anew at each read (R19, R152, U1). -/
def State.readObuf (s : State) (i : Nat) : Byte × State :=
  match s.obuf.read i with
  | some b => (b, s)
  | none =>
    if s.commanded then (Config.obufDraw s.draws, { s with draws := s.draws + 1 })
    else (Config.obufPowerUp s.epoch i, s)

/-- A host write of `IBUF[i]` (R18). -/
def State.writeIbuf (s : State) (i : Nat) (v : Byte) : State := { s with ibuf := s.ibuf.write i v }

/-- A host read of register `n` (R13 to R17); registers above 4 do not exist (R36) and are refused before. -/
def State.readReg (s : State) (n : Nat) : Word :=
  match n with
  | 0 => s.cmdWord
  | 1 => s.statusWord
  | 2 => s.ilenWord
  | 3 => s.olenWord
  | _ => s.cfgWord

/-- A host write of `ILEN`: the low 16 bits are kept, the rest ignored (R15). -/
def State.writeIlen (s : State) (v : Word) : State := { s with ilen := v.extractLsb' 0 16 }

/-- The part of a write to `CMD` that comes before the word is looked at: `CMD.OPC <- w[7:0]` (R13, R52). -/
def State.recordOpc (s : State) (c : BitVec 8) : State := { s with opc := c }

/-- `raise E`, the block's one way of taking an exception (R152): the code, `ERRPOS = 0`, `OLEN = 0`, every `OBUF`
cell unspecified. -/
def State.raise (s : State) (e : ErrCode) : State :=
  { s with err := e, errpos := 0, olen := 0, obuf := [], commanded := true }

/-- The end of a command that has a result (last four lines of R52): the result in `OBUF`, its length in `OLEN`,
`ERR = 0` and `ERRPOS`. The cells beyond the result hold no specified value (R19). -/
def State.succeed (s : State) (res : List Byte) (pos : BitVec 4) : State :=
  { s with
    obuf := Memory.ofSeq res
    olen := BitVec.ofNat 16 res.length
    err := .ok
    errpos := pos
    commanded := true }

/-- The platform's reset (R165): every piece of the block's state at its reset value. The host's coming accesses are
the host's and stay; a new epoch begins, so that the cells of both buffers are unspecified anew (log 13). `PAR` and the
Reed-Solomon scratch are then 0 by the choice of log 9. -/
def State.platformReset (s : State) : State :=
  { State.resetOf s.cfg with epoch := s.epoch + 1, draws := s.draws, pending := s.pending }

end Sys2Proof.Machine
end

