-- ==== Sys2Proof/Machine/Operands.lean ====
section
/-! DEFINITION. The implicit operands of a command (R18, R47): the input sequence, bit cells and byte cells, and the
checks of the input's alphabet. -/

namespace Sys2Proof.Machine

/-- The input sequence `IBUF[0..n-1]`, element 0 first (R18, R47). -/
def State.input (s : State) (n : Nat) : List Byte := (List.range n).map s.ibufCell

/-- A bit cell holds 0x00 or 0x01; any other value is no binary digit (R18, R66). -/
def isBitCell (b : Byte) : Bool := decide (b = 0) || decide (b = 1)

/-- The alphabet check of the four bit-oriented commands (R66, R82). -/
def bitsOnly (inp : List Byte) : Bool := inp.all isBitCell

/-- `RS_ENC` and `RS_DEC` check no alphabet: every byte is a symbol (R115). -/
def anySymbol (_ : List Byte) : Bool := true

/-- The binary digit of a bit cell (R18). -/
def bitOfCell (b : Byte) : Bool := decide (b = 1)

/-- The bit cell of a binary digit (R19). -/
def cellOfBit (x : Bool) : Byte := if x then 1 else 0

/-- The bits of a sequence of bit cells. -/
def bitsOf (cells : List Byte) : List Bool := cells.map bitOfCell

/-- A bit result as bit cells (R19). -/
def cellsOf (bits : List Bool) : List Byte := bits.map cellOfBit

/-- Element `i` of a bit sequence (R7). -/
def bitAt (l : List Bool) (i : Nat) : Bool := l.getD i false

end Sys2Proof.Machine
end

