-- ==== Sys2Proof/Machine/Command.lean ====
section
/-! DEFINITION. The common execution sequence of every command (R52), after the opcode check. -/

namespace Sys2Proof.Machine

/-- What `compute_op` of R52 gives: a result sequence with the error position to report, or the failure of `RS_DEC`. -/
inductive CodecResult where
  | done (res : List Byte) (errpos : BitVec 4)
  | uncorrectable
deriving DecidableEq, Repr

/-- How a command ends, given what `compute_op` gave (R52). -/
def State.finish (s : State) : CodecResult → State
  | .done res pos => s.succeed res pos
  | .uncorrectable => s.raise .uncorrectable

/-- The sequence of R52 from `n <- ILEN.LEN` on: the length check, before any cell is read; the alphabet check; the
computation, which also leaves its working state in `inner` (log 8); the result or the error. -/
def State.runCommand (s : State) (lengthOk : Params → Nat → Bool) (alphabetOk : List Byte → Bool)
    (compute : Params → Internals → List Byte → CodecResult × Internals) : State :=
  if lengthOk s.cfg s.ilen.toNat then
    let inp := s.input s.ilen.toNat
    if alphabetOk inp then
      let r := compute s.cfg s.inner inp
      { s with inner := r.2 }.finish r.1
    else s.raise .invalidInput
  else s.raise .invalidInput

end Sys2Proof.Machine
end

