-- ==== Sys2Proof/Machine/Convolutional.lean ====
section
/-! DEFINITION. `CONV_ENC` and `VIT_DEC` (R70 to R83): the trellis, the encoder, the branch metrics, add-compare-select,
the survivor memory, the trace-back, and the reference formulation of R79. -/

namespace Sys2Proof.Machine

/-- State `00`, where the encoder and every path start (R72, R22). -/
def convStart : ConvState := { s0 := false, s1 := false }

/-- The next state of R71: the new bit enters on the left. -/
def convNext (st : ConvState) (b : Bool) : ConvState := { s0 := b, s1 := st.s0 }

/-- The two outputs of R71, generators 111 and 101 (R70). -/
def convOut (st : ConvState) (b : Bool) : Bool × Bool := (b ^^ st.s0 ^^ st.s1, b ^^ st.s1)

/-- The loop of R72 from a register value on: the output bits. -/
def convEncodeFrom : ConvState → List Bool → List Bool
  | _, [] => []
  | st, b :: bs => (convOut st b).1 :: (convOut st b).2 :: convEncodeFrom (convNext st b) bs

/-- The encoder of R72, from `SR = 00`. -/
def convEncode (m : List Bool) : List Bool := convEncodeFrom convStart m

/-- The value of `SR` after the message (R72). -/
def convFinal (m : List Bool) : ConvState := m.foldl convNext convStart

/-- The value a four-way table gives for a trellis state (R21). -/
def Quad.get {α : Type} (q : Quad α) (st : ConvState) : α :=
  match st.s0, st.s1 with
  | false, false => q.s00
  | false, true => q.s01
  | true, false => q.s10
  | true, true => q.s11

/-- The table with a new value for one trellis state. -/
def Quad.set {α : Type} (q : Quad α) (st : ConvState) (v : α) : Quad α :=
  match st.s0, st.s1 with
  | false, false => { q with s00 := v }
  | false, true => { q with s01 := v }
  | true, false => { q with s10 := v }
  | true, true => { q with s11 := v }

/-- The table of a function of the trellis state. -/
def Quad.tabulate {α : Type} (f : ConvState → α) : Quad α :=
  { s00 := f { s0 := false, s1 := false }
    s01 := f { s0 := false, s1 := true }
    s10 := f { s0 := true, s1 := false }
    s11 := f { s0 := true, s1 := true } }

/-- The table with a function applied to each value. -/
def Quad.map {α β : Type} (f : α → β) (q : Quad α) : Quad β :=
  { s00 := f q.s00, s01 := f q.s01, s10 := f q.s10, s11 := f q.s11 }

/-- The states in the order `00`, `01`, `10`, `11` (R74, R76). -/
def convStates : List ConvState :=
  [{ s0 := false, s1 := false }, { s0 := false, s1 := true }, { s0 := true, s1 := false },
    { s0 := true, s1 := true }]

/-- The branch metric of R73, the Hamming distance of two pairs. -/
def branchMetric (r o : Bool × Bool) : Nat := (r.1 ^^ o.1).toNat + (r.2 ^^ o.2).toNat

/-- The path metrics of the reachable states; `none` is `REACH = 0` (R22). -/
abbrev Metrics := Quad (Option Nat)

/-- The metrics at the start of every `VIT_DEC` (R22, R78). -/
def metricsStart : Metrics := { s00 := some 0, s01 := none, s10 := none, s11 := none }

/-- The metric of the path through predecessor `p` with input bit `x`, if `p` is reachable (R74). -/
def candidate (m : Metrics) (r : Bool × Bool) (p : ConvState) (x : Bool) : Option Nat :=
  (m.get p).map fun c => c + branchMetric r (convOut p x)

/-- The select of R74: the smaller of the two candidates and the decision bit; a tie keeps the first. -/
def select : Option Nat → Option Nat → Option Nat × Option Bool
  | some c0, some c1 => if c1 < c0 then (some c1, some true) else (some c0, some false)
  | some c0, none => (some c0, some false)
  | none, some c1 => (some c1, some true)
  | none, none => (none, none)

/-- Add, compare and select for destination `ns = (x, y)`, whose predecessors are `(y, 0)` and `(y, 1)` (R74). -/
def acsAt (m : Metrics) (r : Bool × Bool) (ns : ConvState) : Option Nat × Option Bool :=
  select (candidate m r { s0 := ns.s1, s1 := false } ns.s0) (candidate m r { s0 := ns.s1, s1 := true } ns.s0)

/-- The metrics after one segment, all four from the old ones (R74). -/
def acsMetrics (m : Metrics) (r : Bool × Bool) : Metrics := Quad.tabulate fun ns => (acsAt m r ns).1

/-- The decision bits of one segment, the row of `SURV` it leaves (R74, R75). -/
def acsDecisions (m : Metrics) (r : Bool × Bool) : Quad (Option Bool) := Quad.tabulate fun ns => (acsAt m r ns).2

/-- The segments `(r[2t], r[2t+1])` of a received sequence (R33, R78). -/
def segments : List Bool → List (Bool × Bool)
  | a :: b :: rest => (a, b) :: segments rest
  | _ => []

/-- The forward pass of R78: the final metrics, and the rows of `SURV` in the order of the segments. -/
def viterbiForward : Metrics → List (Bool × Bool) → Metrics × List (Quad (Option Bool))
  | m, [] => (m, [])
  | m, r :: rs =>
    let rest := viterbiForward (acsMetrics m r) rs
    (rest.1, acsDecisions m r :: rest.2)

/-- `best` against one more state of the scan of R76: the later state wins only when it is reachable and the best so
far is unreachable or strictly worse. -/
def betterOf (m : Metrics) (best s : ConvState) : ConvState :=
  match m.get s, m.get best with
  | some a, some b => if a < b then s else best
  | some _, none => s
  | none, _ => best

/-- The final state of R76: the scan in the order `00`, `01`, `10`, `11`. R76 begins with no best state; beginning
with `00` gives the same, because an unreachable best loses to every reachable state. -/
def bestState (m : Metrics) : ConvState := convStates.foldl (betterOf m) convStart

/-- The predecessor that a row of `SURV` records for state `cur` (R75, R77). A bit that no segment decided is never
read (R23); it would be a free value (log 7). -/
def predecessor (row : Quad (Option Bool)) (cur : ConvState) : ConvState :=
  { s0 := cur.s1, s1 := (row.get cur).getD Config.survUndecided }

/-- The trace-back of R77 over the rows, last segment first; `tail` holds the bits already emitted, which are the
later ones. -/
def traceback : List (Quad (Option Bool)) → ConvState → List Bool → List Bool
  | [], _, tail => tail
  | row :: earlier, cur, tail => traceback earlier (predecessor row cur) (cur.s0 :: tail)

/-- `VIT_DEC` as a function of the received bits (R78): forward pass, final state, trace-back. -/
def viterbi (r : List Bool) : List Bool :=
  let f := viterbiForward metricsStart (segments r)
  traceback f.2.reverse (bestState f.1) []

/-- The survivors of the reference formulation: metric and input bits of the path that each state retains (R79). -/
abbrev Paths := Quad (Option (Nat × List Bool))

/-- The start of the reference formulation (R79). -/
def pathsStart : Paths := { s00 := some (0, []), s01 := none, s10 := none, s11 := none }

/-- One transition of the inner loop of R79: extend the path of `s` by bit `b`; keep it at its destination if nothing
was there or it is strictly better. -/
def refExtend (old : Paths) (seg : Bool × Bool) (new : Paths) (sb : ConvState × Bool) : Paths :=
  match old.get sb.1 with
  | none => new
  | some (c, path) =>
    let ns := convNext sb.1 sb.2
    let c' := c + branchMetric seg (convOut sb.1 sb.2)
    match new.get ns with
    | none => new.set ns (some (c', path ++ [sb.2]))
    | some (d, _) => if c' < d then new.set ns (some (c', path ++ [sb.2])) else new

/-- The eight transitions in the order of R79: state `00`, `01`, `10`, `11`, input 0 before 1. -/
def refOrder : List (ConvState × Bool) := convStates.flatMap fun s => [(s, false), (s, true)]

/-- One segment of the reference formulation (R79). -/
def refStep (old : Paths) (seg : Bool × Bool) : Paths :=
  refOrder.foldl (refExtend old seg) { s00 := none, s01 := none, s10 := none, s11 := none }

/-- One state of the final scan of R79: the first state with the smallest metric is kept. -/
def refBetter (p : Paths) (best : Option (Nat × List Bool)) (s : ConvState) : Option (Nat × List Bool) :=
  match p.get s, best with
  | none, _ => best
  | some x, none => some x
  | some x, some y => if x.1 < y.1 then some x else some y

/-- `viterbi_reference` of R79: the path of the first state with the smallest metric. -/
def viterbiReference (r : List Bool) : Option (List Bool) :=
  let final := (segments r).foldl refStep pathsStart
  (convStates.foldl (refBetter final) none).map Prod.snd

/-- `CONV_ENC` accepts lengths 1 to `BUFSZ/2` (R82). -/
def convEncLength (p : Params) (n : Nat) : Bool := decide (1 ≤ n) && decide (n ≤ p.bufsz / 2)

/-- `VIT_DEC` accepts even lengths 2 to `BUFSZ` (R82). -/
def vitDecLength (p : Params) (n : Nat) : Bool := decide (n % 2 = 0) && decide (2 ≤ n) && decide (n ≤ p.bufsz)

/-- `compute_op` of `CONV_ENC` (R72); it leaves the last value of `SR` (R21). -/
def convEncCompute (_ : Params) (inner : Internals) (inp : List Byte) : CodecResult × Internals :=
  (.done (cellsOf (convEncode (bitsOf inp))) 0, { inner with sr := convFinal (bitsOf inp) })

/-- `compute_op` of `VIT_DEC` (R78); it leaves the final metrics, narrowed to `PMW` = 16 bits (R22), and the rows
`0..L-1` of `SURV` (R23); later rows stay. -/
def vitDecCompute (_ : Params) (inner : Internals) (inp : List Byte) : CodecResult × Internals :=
  let f := viterbiForward metricsStart (segments (bitsOf inp))
  (.done (cellsOf (viterbi (bitsOf inp))) 0,
    { inner with
      metrics := f.1.map fun c => c.map (BitVec.ofNat 16)
      surv := f.2 ++ inner.surv.drop f.2.length })

/-- `CONV_ENC` (R72, R82, inside R52). -/
def execConvEnc (s : State) : Host.Outcome State Fault Refusal :=
  .next (s.runCommand convEncLength bitsOnly convEncCompute)

/-- `VIT_DEC` (R78, R82, inside R52). -/
def execVitDec (s : State) : Host.Outcome State Fault Refusal :=
  .next (s.runCommand vitDecLength bitsOnly vitDecCompute)

end Sys2Proof.Machine
end

