-- ==== Sys2Proof/Machine/Hamming.lean ====
section
/-! DEFINITION. `HAM_ENC` and `HAM_DEC` (R60 to R66). -/

namespace Sys2Proof.Machine

/-- The codeword of four data bits: the parity equations and the layout of R60, R61. -/
def hamEncode (d : List Bool) : List Bool :=
  let d0 := bitAt d 0
  let d1 := bitAt d 1
  let d2 := bitAt d 2
  let d3 := bitAt d 3
  let p1 := d0 ^^ d1 ^^ d3
  let p2 := d0 ^^ d2 ^^ d3
  let p3 := d1 ^^ d2 ^^ d3
  [p1, p2, d0, p3, d1, d2, d3]

/-- The error position `s1 + 2*s2 + 4*s3` of R62, 0 to 7. -/
def hamSyndrome (e : List Bool) : Nat :=
  let s1 := bitAt e 0 ^^ bitAt e 2 ^^ bitAt e 4 ^^ bitAt e 6
  let s2 := bitAt e 1 ^^ bitAt e 2 ^^ bitAt e 5 ^^ bitAt e 6
  let s3 := bitAt e 3 ^^ bitAt e 4 ^^ bitAt e 5 ^^ bitAt e 6
  s1.toNat + 2 * s2.toNat + 4 * s3.toNat

/-- Flip the bit at 1-indexed position `pos`, when `pos` is not 0 (R62). -/
def hamFlip (e : List Bool) (pos : Nat) : List Bool :=
  if pos = 0 then e else e.set (pos - 1) (!bitAt e (pos - 1))

/-- `ham_correct` of R62: the data bits at indices 2, 4, 5, 6 after the flip, and the error position. -/
def hamCorrect (e : List Bool) : List Bool × Nat :=
  let pos := hamSyndrome e
  let c := hamFlip e pos
  ([bitAt c 2, bitAt c 4, bitAt c 5, bitAt c 6], pos)

/-- `HAM_ENC` accepts length 4 (R66). -/
def hamEncLength (_ : Params) (n : Nat) : Bool := decide (n = 4)

/-- `HAM_DEC` accepts length 7 (R66). -/
def hamDecLength (_ : Params) (n : Nat) : Bool := decide (n = 7)

/-- `compute_op` of `HAM_ENC` (R61). It has no working state. -/
def hamEncCompute (_ : Params) (inner : Internals) (inp : List Byte) : CodecResult × Internals :=
  (.done (cellsOf (hamEncode (bitsOf inp))) 0, inner)

/-- `compute_op` and `errpos_op` of `HAM_DEC` (R63). It has no working state. -/
def hamDecCompute (_ : Params) (inner : Internals) (inp : List Byte) : CodecResult × Internals :=
  let r := hamCorrect (bitsOf inp)
  (.done (cellsOf r.1) (BitVec.ofNat 4 r.2), inner)

/-- `HAM_ENC` (R61, R66, inside R52). -/
def execHamEnc (s : State) : Host.Outcome State Fault Refusal :=
  .next (s.runCommand hamEncLength bitsOnly hamEncCompute)

/-- `HAM_DEC` (R63, R66, inside R52). -/
def execHamDec (s : State) : Host.Outcome State Fault Refusal :=
  .next (s.runCommand hamDecLength bitsOnly hamDecCompute)

end Sys2Proof.Machine
end

