-- ==== Sys2Proof/Machine/Galois.lean ====
section
/-! DEFINITION. The unit `galois_field`: GF(2^8) with polynomial 0x11D (R90 to R97). -/

namespace Sys2Proof.Machine

/-- Addition and subtraction (R91). -/
def gfAdd (a b : Byte) : Byte := a ^^^ b

/-- One shift of R92: multiply by x on 9 bits, and reduce by 0x11D when bit 8 is set. -/
def gfDouble (a : Byte) : Byte :=
  let a9 : BitVec 9 := a.setWidth 9 <<< 1
  (if a9.getLsbD 8 then a9 ^^^ 0x11D else a9).setWidth 8

/-- The loop of R92 for the bits `i, i+1, ...` of `b`, `n` of them. -/
def gfMulLoop (b : Byte) : (n : Nat) → (i : Nat) → (a r : Byte) → Byte
  | 0, _, _, r => r
  | n + 1, i, a, r => gfMulLoop b n (i + 1) (gfDouble a) (if b.getLsbD i then r ^^^ a else r)

/-- Multiplication (R92). -/
def gfMul (a b : Byte) : Byte := gfMulLoop b 8 0 a 0

/-- The primitive element α (R90). -/
def gfAlpha : Byte := 0x02

/-- `EXP[i] = α^i` by the recurrence of R93. -/
def gfExp : Nat → Byte
  | 0 => 1
  | i + 1 => gfMul (gfExp i) gfAlpha

/-- `LOG[v]`, the `i` in 0..254 with `EXP[i] = v`; `LOG[0]` does not exist (R93; log 11). -/
def gfLog (v : Byte) : Option Nat := (List.range 255).find? fun i => decide (gfExp i = v)

/-- Powers (R95). -/
def gfPow (a : Byte) : Nat → Byte
  | 0 => 1
  | n + 1 => gfMul (gfPow a n) a

/-- The factors `a^2, a^4, ..., a^(2^n)`, multiplied together. -/
def gfSquares : (n : Nat) → (a : Byte) → Byte
  | 0, _ => 1
  | n + 1, a => gfMul (gfMul a a) (gfSquares n (gfMul a a))

/-- The inverse, `gf_pow(a, 254)` of R94, by the squares a^2 to a^128. It is defined for non-zero `a` only: the
caller gives the proof (log 11). -/
def gfInv (a : Byte) (_ : a ≠ 0) : Byte := gfSquares 7 a

/-- Division by a non-zero element (R94). -/
def gfDiv (a b : Byte) (hb : b ≠ 0) : Byte := gfMul a (gfInv b hb)

/-- Evaluation by Horner's rule, first element the highest degree (R96). -/
def polyEval (c : List Byte) (x : Byte) : Byte := c.foldl (fun y ci => gfMul y x ^^^ ci) 0

/-- Evaluation of a polynomial written lowest degree first (R112, R113). -/
def polyEvalLow (c : List Byte) (x : Byte) : Byte := c.foldr (fun ci y => gfMul y x ^^^ ci) 0

/-- Sum of two sequences aligned at their first elements, the shorter one extended with zeros (R111). -/
def polyAddLow : List Byte → List Byte → List Byte
  | [], ys => ys
  | x :: xs, [] => x :: xs
  | x :: xs, y :: ys => (x ^^^ y) :: polyAddLow xs ys

/-- Product of two polynomials; both sequences and the result in the same order of degrees (R97). -/
def polyMul : List Byte → List Byte → List Byte
  | [], _ => []
  | [a], q => q.map (gfMul a)
  | a :: b :: p, q => polyAddLow (q.map (gfMul a)) (0 :: polyMul (b :: p) q)

/-- The generator polynomial of R97, highest degree first: the product of `x - α^i` for `i` in 0..nsym-1. -/
def rsGenerator : (nsym : Nat) → List Byte
  | 0 => [1]
  | i + 1 => polyMul (rsGenerator i) [1, gfExp i]

/-- Multiplying by α takes no non-zero element to 0 (R90: α is not a divisor of zero). -/
theorem gfMul_alpha_ne_zero : ∀ a : Byte, a ≠ 0 → gfMul a gfAlpha ≠ 0 := by decide +kernel

/-- Every power of α is non-zero (R90), so R113 may invert the locator of a position. -/
theorem gfExp_ne_zero (i : Nat) : gfExp i ≠ 0 := by
  induction i with
  | zero => decide
  | succ i ih => exact gfMul_alpha_ne_zero _ ih

end Sys2Proof.Machine
end

