-- ==== Sys2Proof/Machine/ReedSolomon.lean ====
section
/-! DEFINITION. `RS_ENC` and `RS_DEC` (R105 to R116): the code, the parity register, and the decoder organisation of
R110 to R114. -/

namespace Sys2Proof.Machine

/-- Membership in `CW(N)` of R105, for a sequence of any length `N`: α^0 to α^(nsym-1) are roots. -/
def isCodeword (nsym : Nat) (c : List Byte) : Bool :=
  (List.range nsym).all fun j => decide (polyEval c (gfExp j) = 0)

/-- The number of indices at which two sequences of one length differ (R108). -/
def symbolDistance : List Byte → List Byte → Nat
  | a :: as, b :: bs => (if a = b then 0 else 1) + symbolDistance as bs
  | _, _ => 0

/-- One message symbol through the feedback shift register of R107; `g` is the generator without its leading 1. -/
def parityStep (g : List Byte) (par : List Byte) (m : Byte) : List Byte :=
  let fb := m ^^^ par.headD 0
  List.zipWith (fun next c => next ^^^ gfMul c fb) (par.tail ++ [0]) g

/-- `rs_parity` of R107, from `PAR` all 0. -/
def rsParity (nsym : Nat) (m : List Byte) : List Byte :=
  m.foldl (parityStep (rsGenerator nsym).tail) (List.replicate nsym 0)

/-- The systematic codeword of a message (R105, R106). -/
def rsEncode (nsym : Nat) (m : List Byte) : List Byte := m ++ rsParity nsym m

/-- The syndromes of R110. -/
def rsSyndromes (nsym : Nat) (r : List Byte) : List Byte := (List.range nsym).map fun j => polyEval r (gfExp j)

/-- The variables of the Berlekamp-Massey loop of R111; the polynomials are written lowest degree first. The divisor
`b` carries the proof that it is not 0 (R94, R111: "b is never 0"). -/
structure BmState where
  lam : List Byte
  bp : List Byte
  l : Nat
  m : Nat
  b : { x : Byte // x ≠ 0 }

/-- The start of R111. -/
def bmStart : BmState := { lam := [1], bp := [1], l := 0, m := 1, b := ⟨1, by decide⟩ }

/-- The discrepancy of R111 at step `k`. -/
def bmDiscrepancy (s : List Byte) (st : BmState) (k : Nat) : Byte :=
  (List.range st.l).foldl
    (fun d i0 =>
      let i := i0 + 1
      if i < st.lam.length then d ^^^ gfMul (st.lam.getD i 0) (s.getD (k - i) 0) else d)
    (s.getD k 0)

/-- One pass of the loop of R111. -/
def bmStep (s : List Byte) (st : BmState) (k : Nat) : BmState :=
  let d := bmDiscrepancy s st k
  if hd : d = 0 then { st with m := st.m + 1 }
  else
    let coef := gfDiv d st.b.1 st.b.2
    let lam := polyAddLow st.lam (List.replicate st.m 0 ++ st.bp.map (gfMul coef))
    if 2 * st.l ≤ k then { lam := lam, bp := st.lam, l := k + 1 - st.l, m := 1, b := ⟨d, hd⟩ }
    else { st with lam := lam, m := st.m + 1 }

/-- The sequence without its trailing zeros. -/
def dropTrailingZeros (c : List Byte) : List Byte :=
  c.foldr (fun x rest => if rest = [] ∧ x = 0 then [] else x :: rest) []

/-- "remove trailing zero coefficients (keep the first)" (R111). -/
def trimLow : List Byte → List Byte
  | [] => []
  | x :: xs => x :: dropTrailingZeros xs

/-- Berlekamp-Massey (R111): the trimmed locator and `L`. -/
def berlekampMassey (s : List Byte) : List Byte × Nat :=
  let st := (List.range s.length).foldl (bmStep s) bmStart
  (trimLow st.lam, st.l)

/-- The root search of R112 over the `n` indices of the word. -/
def chienSearch (lam : List Byte) (n : Nat) : List Nat :=
  (List.range n).filter fun p => decide (polyEvalLow lam (gfExp ((255 - (n - 1 - p)) % 255)) = 0)

/-- The evaluator of R113: `S(x)·Λ(x)` without the powers from `x^NSYM` on. -/
def rsEvaluator (s lam : List Byte) (l : Nat) : List Byte :=
  (List.range s.length).map fun i =>
    (List.range (min i l + 1)).foldl (fun acc j => acc ^^^ gfMul (s.getD (i - j) 0) (lam.getD j 0)) 0

/-- The formal derivative of R113: the odd-degree terms, each moved down by one degree. -/
def formalDerivative (lam : List Byte) : List Byte :=
  (List.range (lam.length - 1)).map fun j => if j % 2 = 0 then lam.getD (j + 1) 0 else 0

/-- The error value of R113 at index `p` of an `n`-symbol word; `none` when the denominator is 0. -/
def forneyValue (n : Nat) (lam om : List Byte) (p : Nat) : Option Byte :=
  let x := gfExp ((n - 1 - p) % 255)
  let xi := gfInv x (gfExp_ne_zero _)
  let num := polyEvalLow om xi
  let den := polyEvalLow (formalDerivative lam) xi
  if hd : den = 0 then none else some (gfMul x (gfDiv num den hd))

/-- The corrections of R113, position by position; `c` starts as a copy of `r`. -/
def forneyCorrect (r lam om : List Byte) : List Nat → List Byte → Option (List Byte)
  | [], c => some c
  | p :: ps, c =>
    match forneyValue r.length lam om p with
    | none => none
    | some y => forneyCorrect r lam om ps (c.set p (r.getD p 0 ^^^ y))

/-- The decoder of R110 to R114 on a received word: the message, or `none` for `Uncorrectable`; and the working state
it leaves (R24; log 8). -/
def rsDecode (p : Params) (r : List Byte) : Option (List Byte) × RsScratch :=
  let k := r.length - p.nsym
  let s := rsSyndromes p.nsym r
  let w0 : RsScratch := { RsScratch.init p with syndromes := s }
  if s.all fun x => decide (x = 0) then (some (r.take k), w0)
  else
    let bm := berlekampMassey s
    let w1 : RsScratch := { w0 with locator := bm.1.take (p.t + 1) }
    if bm.1.length - 1 ≠ bm.2 ∨ p.t < bm.2 then (none, w1)
    else
      let pos := chienSearch bm.1 r.length
      if pos.length ≠ bm.2 then (none, w1)
      else
        let om := rsEvaluator s bm.1 bm.2
        let w2 : RsScratch := { w1 with evaluator := om, positions := pos }
        match forneyCorrect r bm.1 om pos r with
        | none => (none, w2)
        | some c => if isCodeword p.nsym c then (some (c.take k), w2) else (none, w2)

/-- `RS_ENC` accepts lengths 1 to `255 - NSYM` (R115). -/
def rsEncLength (p : Params) (n : Nat) : Bool := decide (1 ≤ n) && decide (n ≤ nmax - p.nsym)

/-- `RS_DEC` accepts lengths `NSYM + 1` to 255 (R115). -/
def rsDecLength (p : Params) (n : Nat) : Bool := decide (p.nsym + 1 ≤ n) && decide (n ≤ nmax)

/-- `compute_op` of `RS_ENC` (R106); it leaves the parity in `PAR` (R107). -/
def rsEncCompute (p : Params) (inner : Internals) (inp : List Byte) : CodecResult × Internals :=
  (.done (rsEncode p.nsym inp) 0, { inner with par := rsParity p.nsym inp })

/-- `compute_op` of `RS_DEC` (R108, by R110 to R114); it leaves the decoder's scratch (R24). -/
def rsDecCompute (p : Params) (inner : Internals) (inp : List Byte) : CodecResult × Internals :=
  let d := rsDecode p inp
  (match d.1 with
    | some m => .done m 0
    | none => .uncorrectable,
    { inner with rs := d.2 })

/-- `RS_ENC` (R106, R115, inside R52). -/
def execRsEnc (s : State) : Host.Outcome State Fault Refusal :=
  .next (s.runCommand rsEncLength anySymbol rsEncCompute)

/-- `RS_DEC` (R108, R115, inside R52). -/
def execRsDec (s : State) : Host.Outcome State Fault Refusal :=
  .next (s.runCommand rsDecLength anySymbol rsDecCompute)

end Sys2Proof.Machine
end

