-- ==== Sys2Proof/Machine/Dispatch.lean ====
section
/-! DEFINITION. One arm for each command of R46. -/

namespace Sys2Proof.Machine

def exec (i : Instr) (s : State) : Host.Outcome State Fault Refusal :=
  match i with
  | .hamEnc => Sys2Proof.Machine.execHamEnc s
  | .hamDec => Sys2Proof.Machine.execHamDec s
  | .convEnc => Sys2Proof.Machine.execConvEnc s
  | .vitDec => Sys2Proof.Machine.execVitDec s
  | .rsEnc => Sys2Proof.Machine.execRsEnc s
  | .rsDec => Sys2Proof.Machine.execRsDec s

end Sys2Proof.Machine
end

