-- ==== Sys2Proof/Machine/Access.lean ====
section
/-! DEFINITION. What one host access does (R8, R13 to R19, R30 to R32, R36, R165), and the order of accesses (R39). -/

namespace Sys2Proof.Machine

/-- A write to `CMD` (R13, R52): `OPC` records the low byte; the word is decoded; a command runs, any other word
raises `IllegalCommand` (R48). -/
def State.writeCmd (s : State) (w : Word) : Host.Outcome State Fault Refusal :=
  match decode w with
  | .ok i => exec i (s.recordOpc (opcField w))
  | .error _ => .next ((s.recordOpc (opcField w)).raise .illegalCmd)

/-- A register write: `CMD` runs a command, `ILEN` stores its low half, the others are read only and ignore it
(R13 to R17, R32). -/
def State.writeReg (s : State) (n : Nat) (v : Word) : Host.Outcome State Fault Refusal :=
  match n with
  | 0 => s.writeCmd v
  | 2 => .next (s.writeIlen v)
  | _ => .next s

/-- A cell read, with the value it returns (R18, R19, R32). -/
def State.readCell (s : State) : Space → Nat → Byte × State
  | .ibuf, i => (s.ibufCell i, s)
  | .obuf, i => s.readObuf i

/-- A cell write; `OBUF` is read only and ignores it (R18, R19, R32). -/
def State.writeCell (s : State) : Space → Nat → Byte → State
  | .ibuf, i, v => s.writeIbuf i v
  | .obuf, _, _ => s

/-- The state with an answer to the host. -/
def State.reply (s : State) (a : HostAnswer) : State := { s with answer := some a }

/-- One access inside the index ranges. -/
def State.access (s : State) : HostAction → Host.Outcome State Fault Refusal
  | .regRead n => .next (s.reply (.word (s.readReg n)))
  | .regWrite n v => s.writeReg n v
  | .memRead sp i => .next ((s.readCell sp i).2.reply (.cell (s.readCell sp i).1))
  | .memWrite sp i v => .next (s.writeCell sp i v)
  | .reset => .next s.platformReset

/-- The state in which access number one of the list is under way: it is off the list, and there is no answer yet. -/
def State.issue (s : State) (rest : List HostAction) : State := { s with pending := rest, answer := none }

/-- One step of the host's order (R39): the first pending access takes effect completely, if it is inside the index
ranges; one outside them is refused and reads or writes nothing (R36). With nothing pending the block is idle: only
commands and host accesses change its state (R10, R14; log 2). -/
def State.serveNext (s : State) : Host.Outcome State Fault Refusal :=
  match s.pending with
  | [] => .next s
  | a :: rest => if a.inRange s.cfg then (s.issue rest).access a else .refused (.accessOutOfRange a)

/-- The state in which the host's next access is the write of the word `w` to `CMD`. -/
def State.withCmdWrite (s : State) (w : Word) : State := { s with pending := .regWrite 0 w :: s.pending }

end Sys2Proof.Machine
end

