-- ==== Sys2Proof/Machine/Step.lean ====
section
/-! DEFINITION. The step: the host's next access (R39). -/

namespace Sys2Proof.Machine

/-- One step of the machine. -/
def step (s : State) : Host.Outcome State Fault Refusal := s.serveNext

/-- The block fetches no instructions (R12): an instruction runs when the host writes its word to `CMD`. So the
instruction is placed as the host's next access (log 1). -/
def State.withFetchWord (s : State) (nbits w : Nat) : State := s.withCmdWrite (BitVec.ofNat 32 (w % 2 ^ nbits))

end Sys2Proof.Machine
end

