-- ==== Sys2Proof/Machine/HostScript.lean ====
section
/-! DEFINITION. The host script of R50 and R51: the notation in which the spec writes host programs, and its expansion
into host accesses. It is no part of State: a script is what the host puts into `pending` (log 1). -/

namespace Sys2Proof.Machine

/-- One line of a host script: the actions of R50 and the pseudo-actions of R51. -/
inductive ScriptLine where
  | wreg (n : Nat) (v : Word)
  | rreg (n : Nat)
  | wcell (i : Nat) (v : Byte)
  | rcell (i : Nat)
  | ricell (i : Nat)
  | comment (text : String)
  /-- A mnemonic on a line by itself: the write of its command word to `CMD` (R50). -/
  | command (i : Instr)
  /-- `LOADBITS`; the leftmost character comes first (R51). -/
  | loadBits (bits : List Bool)
  /-- `LOADBYTES` (R51). -/
  | loadBytes (bytes : List Byte)
  /-- `LOADTEXT`, the 7-bit ASCII codes of the characters (R51; log 17). -/
  | loadText (text : String)
  /-- `FLIP i` (R51). -/
  | flip (i : Nat)
  /-- `XORCELL i, m` (R51). -/
  | xorCell (i : Nat) (m : Byte)
  /-- `COPYBACK` (R51). -/
  | copyBack
  /-- `EXPECT STATUS s, OLEN n, OBUF ...` (R51); `n` is the number of cells. -/
  | expect (status : Word) (cells : List Byte)
deriving DecidableEq, Repr

/-- `WCELL k, v_0`, `WCELL k+1, v_1`, ... -/
def writeCellsFrom : Nat → List Byte → List HostAction
  | _, [] => []
  | k, b :: bs => .memWrite .ibuf k b :: writeCellsFrom (k + 1) bs

/-- The cells of a load, and then its length in `ILEN` (R51). -/
def loadActions (cells : List Byte) : List HostAction :=
  writeCellsFrom 0 cells ++ [.regWrite 2 (BitVec.ofNat 32 cells.length)]

/-- `RCELL i -> v_i, WCELL i, v_i` for one cell of `COPYBACK` (R51). -/
def copyCell (s : State) (i : Nat) : List HostAction :=
  [.memRead .obuf i, .memWrite .ibuf i (s.readObuf i).1]

/-- The accesses a line stands for, issued from state `s`. `FLIP`, `XORCELL` and `COPYBACK` write back values that the
host has just read; the host's reads give what `s` holds, because no access of the expansion changes a cell before it is
read (R51). -/
def ScriptLine.expand (s : State) : ScriptLine → List HostAction
  | .wreg n v => [.regWrite n v]
  | .rreg n => [.regRead n]
  | .wcell i v => [.memWrite .ibuf i v]
  | .rcell i => [.memRead .obuf i]
  | .ricell i => [.memRead .ibuf i]
  | .comment _ => []
  | .command i => [.regWrite 0 (encode i)]
  | .loadBits bits => loadActions (cellsOf bits)
  | .loadBytes bytes => loadActions bytes
  | .loadText text => loadActions (text.toList.map fun c => BitVec.ofNat 8 c.toNat)
  | .flip i => [.memRead .ibuf i, .memWrite .ibuf i (s.ibufCell i ^^^ 0x01)]
  | .xorCell i m => [.memRead .ibuf i, .memWrite .ibuf i (s.ibufCell i ^^^ m)]
  | .copyBack =>
    [.regRead 3] ++ (List.range s.olen.toNat).flatMap (copyCell s) ++ [.regWrite 2 s.olenWord]
  | .expect _ cells => [.regRead 1, .regRead 3] ++ (List.range cells.length).map (.memRead .obuf)

/-- Whether a line's expectation holds in a state; only `EXPECT` expects something (R51). -/
def ScriptLine.holds (s : State) : ScriptLine → Bool
  | .expect status cells =>
    decide (s.statusWord = status) && decide (s.olen.toNat = cells.length)
      && (List.range cells.length).all fun i => decide (s.obuf.read i = cells[i]?)
  | _ => true

/-- The state whose host issues the accesses of a line next. -/
def State.withLine (s : State) (l : ScriptLine) : State := { s with pending := l.expand s ++ s.pending }

end Sys2Proof.Machine
end

