-- ==== Sys2Proof/Machine/Environment.lean ====
section
/-! DEFINITION. What the spec transcribes of the software around the block (R125 to R137). It is not hardware (R4) and
no part of State or of the step; it is here so that statements can speak of `flipOne`, of noise and of the success flag.
A random choice is an argument (R137); arguments that U19 of 93_implementation_defined.md lists are refused by `none`
(log 17). -/

namespace Sys2Proof.Machine

/-- A binary string as bits; `none` when a character is neither `'0'` nor `'1'` (R125). -/
def parseBits : List Char → Option (List Bool)
  | [] => some []
  | c :: cs =>
    if c = '0' then (parseBits cs).map (false :: ·)
    else if c = '1' then (parseBits cs).map (true :: ·)
    else none

/-- Bits as a binary string: the way back from `parseBits` (R125). -/
def renderBits (bits : List Bool) : List Char := bits.map fun x => if x then '1' else '0'

/-- A binary string as bit cells, validated (R125, R18). -/
def cellsOfText (text : List Char) : Option (List Byte) := (parseBits text).map cellsOf

/-- Bit cells back to a binary string; `none` when a cell is no bit cell (R125, R18). -/
def textOfCells (cells : List Byte) : Option (List Char) :=
  if bitsOnly cells then some (renderBits (bitsOf cells)) else none

/-- Exclusive or of two bit sequences, element by element (R125). R125 gives no contract for sequences of different
lengths: DESIGN CHOICE (log 17), unsafe for a claim about them, the result then has the length of the shorter one. -/
def xorBits (a b : List Bool) : List Bool := List.zipWith (· ^^ ·) a b

/-- The data with the element at index `i` complemented (R126). -/
def flipAt (data : List Bool) (i : Nat) : List Bool := data.modify i (!·)

/-- `flipOne` (R126); an index outside the data is refused. -/
def flipOne (data : List Bool) (i : Nat) : Option (List Bool) :=
  if i < data.length then some (flipAt data i) else none

/-- `flipRandomK` for the drawn `positions` (R127): it fails if `k` exceeds the length; a draw that is not `k` distinct
positions of the data is no draw. -/
def flipRandomK (data : List Bool) (k : Nat) (positions : List Nat) : Option (List Bool) :=
  if k ≤ data.length ∧ positions.length = k ∧ positions.Nodup ∧ positions.all (fun i => decide (i < data.length)) then
    some (positions.foldl flipAt data)
  else none

/-- `burstFlip` for the drawn `offset` (R128): a run of `length` bits inside the data, or one random bit when the run is
longer than the data. -/
def burstFlip (data : List Bool) (length offset : Nat) : Option (List Bool) :=
  if length ≤ data.length then
    if offset + length ≤ data.length then
      some ((List.range length).foldl (fun d j => flipAt d (offset + j)) data)
    else none
  else flipOne data offset

/-- The outcomes of one draw of `gaussianFlip` (R129): either one, but that probability 0 never flips the bit and
probability 1 always does. -/
def possibleHit (probability : Rat) (hit : Bool) : Bool :=
  (!decide (probability = 0) || !hit) && (!decide (probability = 1) || hit)

/-- `gaussianFlip` for the drawn `hits`, one for each bit (R129). A probability outside [0, 1] is refused (U19); hits
that the probability rules out are no draw. -/
def gaussianFlip (data : List Bool) (probability : Rat) (hits : List Bool) : Option (List Bool) :=
  if 0 ≤ probability ∧ probability ≤ 1 ∧ hits.length = data.length ∧ hits.all (possibleHit probability) then
    some (xorBits data hits)
  else none

/-- The noise models of R130. -/
inductive NoiseModel where
  | randomFlip (count : Nat)
  | burst (length : Nat)
  | gaussian (probability : Rat)
deriving DecidableEq, Repr

/-- The random choice that the injectable generator of R137 supplies to a noise model. -/
inductive NoiseDraw where
  /-- For `randomFlip`: the positions (R127). -/
  | positions (l : List Nat)
  /-- For `burst`: the offset of the run, or the one bit (R128). -/
  | offset (i : Nat)
  /-- For `gaussian`: for each element whether it is flipped (R129). -/
  | hits (l : List Bool)
deriving DecidableEq, Repr

/-- `injectNoise` (R130) for the drawn choice; the draw of another model is no draw. -/
def injectNoise (data : List Bool) : NoiseModel → NoiseDraw → Option (List Bool)
  | .randomFlip count, .positions l => flipRandomK data count l
  | .burst length, .offset i => burstFlip data length i
  | .gaussian probability, .hits l => gaussianFlip data probability l
  | _, _ => none

/-! ### Noise on byte codewords (R131) -/

/-- `RS_NOISE_GRANULARITY` (R131; 92_eei_decisions.md D31): what an injector takes a byte codeword to be a sequence
of. The test bench chooses; the block does not depend on it. -/
inductive NoiseGranularity where
  | bit
  | byte
deriving DecidableEq, Repr

/-- The bits of a byte, the most significant first (log 17). -/
def bitsOfByte (b : Byte) : List Bool :=
  [b.getLsbD 7, b.getLsbD 6, b.getLsbD 5, b.getLsbD 4, b.getLsbD 3, b.getLsbD 2, b.getLsbD 1, b.getLsbD 0]

/-- A byte codeword as a bit sequence, eight bits for each symbol, the first symbol first (R131). -/
def bitsOfBytes (data : List Byte) : List Bool := data.flatMap bitsOfByte

/-- The byte codeword of a bit sequence; bits that do not fill a byte are dropped. -/
def bytesOfBits : List Bool → List Byte
  | b7 :: b6 :: b5 :: b4 :: b3 :: b2 :: b1 :: b0 :: rest =>
    BitVec.ofBoolListBE [b7, b6, b5, b4, b3, b2, b1, b0] :: bytesOfBits rest
  | _ => []

/-- The symbols that `hits` marks changed by the drawn magnitudes. -/
def hitSymbols (data : List Byte) (hits : List Bool) (magnitudes : List Byte) : List Byte :=
  List.zipWith (fun b hm => if hm.1 then gfAdd b hm.2 else b) data (hits.zip magnitudes)

/-- Noise on a byte codeword (R131). With granularity `bit` it is `injectNoise` on the codeword's bits, and no
magnitude is drawn. With granularity `byte` the elements are the symbols: the model chooses them as it would choose bits,
and a chosen symbol changes by its drawn magnitude, of which there is one, not 0, for each symbol of the codeword. -/
def injectNoiseBytes (data : List Byte) (model : NoiseModel) (draw : NoiseDraw) (magnitudes : List Byte) :
    NoiseGranularity → Option (List Byte)
  | .bit =>
    if magnitudes = [] then (injectNoise (bitsOfBytes data) model draw).map bytesOfBits else none
  | .byte =>
    if magnitudes.length = data.length ∧ magnitudes.all fun m => decide (m ≠ 0) then
      (injectNoise (List.replicate data.length false) model draw).map fun hits => hitSymbols data hits magnitudes
    else none

/-- One entry of the statistics (R132). -/
structure StatsEntry where
  scheme : String
  tested : Nat
  corrected : Nat
deriving DecidableEq, Repr

/-- `recordResult` (R132): one entry for each scheme name. -/
def recordResult : List StatsEntry → String → Bool → List StatsEntry
  | [], scheme, ok => [{ scheme := scheme, tested := 1, corrected := ok.toNat }]
  | e :: es, scheme, ok =>
    if e.scheme = scheme then { e with tested := e.tested + 1, corrected := e.corrected + ok.toNat } :: es
    else e :: recordResult es scheme ok

/-- `successRate` (R133): the percentage, 0 when nothing was tested; exact, since the format and rounding are not
given. -/
def successRate (stats : List StatsEntry) (scheme : String) : Rat :=
  match stats.find? fun e => decide (e.scheme = scheme) with
  | none => 0
  | some e => if e.tested = 0 then 0 else (e.corrected : Rat) / (e.tested : Rat) * 100

/-- The success flag of R135: the last command ended with `ERR = 0` and its result is the original input. -/
def successFlag (s : State) (original : List Byte) : Bool :=
  decide (s.err = .ok) && decide (s.olen.toNat = original.length)
    && (List.range original.length).all fun i => decide (s.obuf.read i = original[i]?)

end Sys2Proof.Machine
end

