-- ==== Sys2Proof/Safety.lean ====
section
/-! DEFINITION. What the statements speak of: the tables of R46 and R146 restated, the distances of R80 and R108, the
invariant of the states, and the runs that go on. -/

namespace Sys2Proof.Machine

/-- The lengths each command accepts, as the column "input in `IBUF`" of R46 and the table of R146 give them. -/
def lengthAccepted (p : Params) (n : Nat) : Instr → Bool
  | .hamEnc => decide (n = 4)
  | .hamDec => decide (n = 7)
  | .convEnc => !(decide (n = 0) || decide (n > p.bufsz / 2))
  | .vitDec => !(decide (n = 0) || decide (n % 2 = 1) || decide (n > p.bufsz))
  | .rsEnc => !(decide (n = 0) || decide (n > 255 - p.nsym))
  | .rsDec => !(decide (n ≤ p.nsym) || decide (n > 255))

/-- The commands whose input is made of bit cells (R18, R146). -/
def readsBits : Instr → Bool
  | .hamEnc => true
  | .hamDec => true
  | .convEnc => true
  | .vitDec => true
  | .rsEnc => false
  | .rsDec => false

/-- No alphabet cause of R146: each cell `IBUF[0..n-1]` of a bit-oriented command is 0x00 or 0x01. -/
abbrev AlphabetAccepted (i : Instr) (s : State) (n : Nat) : Prop :=
  readsBits i = true → ∀ k, k < n → s.ibufCell k = 0 ∨ s.ibufCell k = 1

/-- The length of the result of a command on `n` cells (R46). -/
def resultLength (p : Params) (n : Nat) : Instr → Nat
  | .hamEnc => 7
  | .hamDec => 4
  | .convEnc => 2 * n
  | .vitDec => n / 2
  | .rsEnc => n + p.nsym
  | .rsDec => n - p.nsym

/-- `HD(a, b)` of R8 for two bit sequences of one length. -/
def bitDistance : List Bool → List Bool → Nat
  | a :: as, b :: bs => (if a = b then 0 else 1) + bitDistance as bs
  | _, _ => 0

/-- `c` is a codeword of the length of `r` within `T` symbols of it (R105, R108). -/
abbrev CloseCodeword (p : Params) (r c : List Byte) : Prop :=
  c.length = r.length ∧ isCodeword p.nsym c = true ∧ symbolDistance c r ≤ p.t

/-- The input bit `k` places before bit `i` of a message; 0 before its start, where `SR` is `00` (R70, R72). -/
def bitBefore (m : List Bool) (i k : Nat) : Bool := if k ≤ i then bitAt m (i - k) else false

/-- What an error leaves of a state (R152), `inner` given; `commanded` is the model's own mark (log 4). -/
abbrev afterError (s : State) (e : ErrCode) (inner : Internals) : State :=
  { s with err := e, errpos := 0, olen := 0, obuf := [], inner := inner, commanded := true }

/-- What a command with the result `res` and the error position `pos` leaves of a state (R52), `inner` given;
`commanded` is the model's own mark (log 4). -/
abbrev afterResult (s : State) (res : List Byte) (pos : BitVec 4) (inner : Internals) : State :=
  { s with
    err := .ok, errpos := pos, olen := BitVec.ofNat 16 res.length, obuf := Memory.ofSeq res, inner := inner,
    commanded := true }

/-- The registers hold what R14 and R16 let them hold: `ERRPOS` is at most 7, not 0 only after a `HAM_DEC`; an error
leaves `ERRPOS` and `OLEN` 0. -/
abbrev State.StatusOk (s : State) : Prop :=
  s.errpos.toNat ≤ 7 ∧ (s.errpos ≠ 0 → s.opc = 0x02) ∧ (s.err ≠ .ok → s.errpos = 0 ∧ s.olen = 0)

/-- The buffers are canonical, hold existing cells only, and the specified cells of `OBUF` are `0..OLEN-1` (R18, R19,
R30). -/
abbrev State.BuffersOk (s : State) : Prop :=
  s.ibuf.wf = true ∧ s.ibuf.below s.cfg.bufsz = true ∧ s.obuf.wf = true ∧
    s.obuf.map Prod.fst = List.range s.olen.toNat ∧ s.olen.toNat ≤ s.cfg.bufsz

/-- The internal state has the sizes of R22 to R24, and no path metric exceeds `BUFSZ` (R22). -/
abbrev State.InternalsOk (s : State) : Prop :=
  (convStates.all fun st => (s.inner.metrics.get st).all fun c => decide (c.toNat ≤ s.cfg.bufsz)) = true ∧
    s.inner.surv.length = s.cfg.bufsz / 2 ∧ s.inner.par.length = s.cfg.nsym ∧
    s.inner.rs.syndromes.length = s.cfg.nsym ∧ s.inner.rs.locator.length ≤ s.cfg.t + 1 ∧
    s.inner.rs.evaluator.length = s.cfg.nsym ∧ s.inner.rs.positions.length ≤ s.cfg.t

/-- Until the first write to `CMD` since reset, `CMD`, `STATUS` and `OLEN` hold their reset values and no cell of `OBUF`
is specified: only commands write them (R13, R14, R16, R19, R166). -/
abbrev State.IdleOk (s : State) : Prop :=
  s.commanded = false → s.opc = 0 ∧ s.err = .ok ∧ s.errpos = 0 ∧ s.olen = 0 ∧ s.obuf = []

/-- The invariant of every state of a legal instance. -/
abbrev State.Inv (s : State) : Prop :=
  s.cfg.legal = true ∧ s.StatusOk ∧ s.BuffersOk ∧ s.InternalsOk ∧ s.IdleOk

/-- Every access the host has yet to issue is inside the index ranges (R30, R36): the runs the spec describes. -/
abbrev State.InRange (s : State) : Prop := s.pending.all (fun a => a.inRange s.cfg) = true

/-- The accesses that can change `IBUF[i]`: its own write, and reset (R18, R165). -/
def touchesIbuf (i : Nat) : HostAction → Bool
  | .memWrite .ibuf j _ => decide (j = i)
  | .reset => true
  | _ => false

/-- The accesses that can change `OBUF`, `OLEN` and `STATUS`: a write to `CMD`, and reset (R14, R16, R19, R165). -/
def touchesResult : HostAction → Bool
  | .regWrite n _ => decide (n = 0)
  | .reset => true
  | _ => false

end Sys2Proof.Machine
end

