-- ==== Sys2Proof/Certificates/Slice0/Obligations.lean ====
section
/-! DEFINITION. The statements for the provers, from the numbered rules of spec/. -/

open Sys2Proof Sys2Proof.Machine

/-! ### Reset and the step -/

/-- R26, R166: the registers are 0, `CFG` holds its constant, no buffer cell is specified, `SR` is `00`,
`REACH = (1,0,0,0)` with `PM[0] = 0`, and no survivor bit is specified. That `PAR` is 0 is the model's choice (log 9). -/
def Obligations.ResetLeavesTheStatedValues : Prop :=
  State.reset.readReg 0 = 0 ∧ State.reset.readReg 1 = 0 ∧ State.reset.readReg 2 = 0 ∧ State.reset.readReg 3 = 0 ∧
    State.reset.readReg 4 = 0x0200050A ∧
    (∀ i, State.reset.ibuf.read i = none ∧ State.reset.obuf.read i = none) ∧
    State.reset.inner.sr = { s0 := false, s1 := false } ∧
    State.reset.inner.metrics = { s00 := some 0, s01 := none, s10 := none, s11 := none } ∧
    (∀ row ∈ State.reset.inner.surv, ∀ st, row.get st = none) ∧
    State.reset.inner.par = List.replicate 10 0

/-- R166: a command issued straight after reset ends with `INVALID_INPUT`, for each of the six opcodes and every
instance. That the internal state stays as it was is the model's choice (log 8); `commanded` is the model's own mark that
a command has ended (log 4). -/
def Obligations.CommandAfterResetIsInvalidInput : Prop :=
  ∀ (p : Params) (i : Instr), p.legal = true →
    step ((State.resetOf p).withFetchWord 32 (encode i).toNat) =
      .next { State.resetOf p with opc := opcodeOf i, err := .invalidInput, commanded := true }

/-- R13, R52: the step of a host whose next access writes a word that decodes to `i` is `exec` of `i`, in the state
where the access is off the list, there is no answer, and `OPC` holds the low byte. -/
def Obligations.StepRunsTheDecodedCommand : Prop :=
  (∀ (s : State) (w : Word) (rest : List HostAction) (i : Instr),
    s.pending = .regWrite 0 w :: rest → decode w = .ok i → i.wellFormed = true →
      step s = exec i { s with pending := rest, answer := none, opc := w.extractLsb' 0 8 }) ∧
  (∀ (s : State) (i : Instr),
    step (s.withFetchWord 32 (encode i).toNat) = exec i { s with answer := none, opc := opcodeOf i })

/-- R165: the platform's reset puts the block into its reset state whatever it was; the parameters stay. That `PAR` and
the Reed-Solomon scratch are then 0, with no error position, which `t.inner = Internals.init s.cfg` says along with R166's
values for `SR`, `REACH`, `PM` and `SURV`, is the model's choice: R165 and R166 state no value of them for the time after
reset (log 9). That reset is an entry of the host's list, which goes on, and that the counter of draws stays, `epoch`
advances and `commanded` is cleared, is the model's choice too (logs 3, 4, 13): these are no state of the block. -/
def Obligations.PlatformResetRestoresTheResetState : Prop :=
  ∀ (s : State) (rest : List HostAction), s.pending = .reset :: rest →
    ∃ t, step s = .next t ∧ t.opc = 0 ∧ t.err = .ok ∧ t.errpos = 0 ∧ t.ilen = 0 ∧ t.olen = 0 ∧ t.cfg = s.cfg ∧
      t.readReg 4 = s.readReg 4 ∧ (∀ i, t.ibuf.read i = none ∧ t.obuf.read i = none) ∧
      t.inner = Internals.init s.cfg ∧ t.pending = rest ∧ t.draws = s.draws ∧ t.epoch = s.epoch + 1 ∧
      t.commanded = false

/-! ### Encoding -/

/-- R46: the six command words, written out, decode to their operations. -/
def Obligations.SpecWordsDecodeToTheirCommands : Prop :=
  decode 0x00000001 = .ok .hamEnc ∧ decode 0x00000002 = .ok .hamDec ∧ decode 0x00000003 = .ok .convEnc ∧
    decode 0x00000004 = .ok .vitDec ∧ decode 0x00000005 = .ok .rsEnc ∧ decode 0x00000006 = .ok .rsDec

/-- R45: decoding an encoded command gives it back, and a word that decodes to a command is that command's one word. -/
def Obligations.DecodeAndEncodeAgree : Prop :=
  (∀ i : Instr, i.wellFormed = true → decode (encode i) = .ok i) ∧
    ∀ (w : Word) (i : Instr), decode w = .ok i → w = encode i

/-- R48: the words that are no command are exactly those with `RSV` not 0 or `OPC` 0x00 or 0x07..0xFF, and writing one
to `CMD` records the low byte and raises `IllegalCommand`, code 3, whatever `IBUF` holds; `commanded` is the model's own
mark that a command has ended (log 4). -/
def Obligations.IllegalWordRaisesIllegalCmd : Prop :=
  (∀ w : Word, (∀ i, w ≠ encode i) ↔
    (w.extractLsb' 8 24 ≠ 0 ∨ w.extractLsb' 0 8 = 0 ∨ 7 ≤ (w.extractLsb' 0 8).toNat)) ∧
  (∀ (s : State) (w : Word) (rest : List HostAction),
    s.pending = .regWrite 0 w :: rest → (∀ i, w ≠ encode i) →
      step s = .next { s with
        pending := rest, answer := none, opc := w.extractLsb' 0 8, err := .illegalCmd, errpos := 0, olen := 0,
        obuf := [], commanded := true }) ∧
  ErrCode.illegalCmd.code = 3

/-! ### Registers and host accesses -/

/-- R13: after a write to `CMD`, whatever it did, `CMD` reads as the low byte written; before any, as 0; and no access
but a `CMD` write or reset changes it. -/
def Obligations.CmdReadsBackTheLowByte : Prop :=
  State.reset.readReg 0 = 0 ∧
  (∀ (s t : State) (w : Word) (rest : List HostAction),
    s.pending = .regWrite 0 w :: rest → step s = .next t → t.readReg 0 = w &&& 0xFF) ∧
  (∀ (s t : State) (a : HostAction), touchesResult a = false → s.access a = .next t → t.readReg 0 = s.readReg 0)

/-- R14: the fields and reserved bits of `STATUS`; its read-only access; the four codes; `ERR` after each command, by its
checks and its computation (R52, R146, R147), and `ERRPOS` after each, whatever either was before; both after an illegal
word; and that nothing but a command (or reset) writes it. -/
def Obligations.StatusRegisterFollowsItsRule : Prop :=
  (∀ s : State, (s.readReg 1).extractLsb' 0 4 = s.err.code ∧ (s.readReg 1).extractLsb' 4 4 = s.errpos ∧
    (s.readReg 1).extractLsb' 8 24 = 0) ∧
  (∀ (s : State) (v : Word), s.access (.regWrite 1 v) = .next s) ∧
  (ErrCode.ok.code = 0 ∧ ErrCode.invalidInput.code = 1 ∧ ErrCode.uncorrectable.code = 2 ∧
    ErrCode.illegalCmd.code = 3) ∧
  (∀ (i : Instr) (s t : State), exec i s = .next t →
    (t.err ≠ .ok ∨ i ≠ .hamDec → t.errpos = 0) ∧
    (t.err = .ok → i = .hamDec →
      t.errpos.toNat = hamSyndrome (bitsOf (s.input 7)) ∧ t.errpos.toNat ≤ 7)) ∧
  (∀ (i : Instr) (s t : State), exec i s = .next t →
    (¬ (lengthAccepted s.cfg s.ilen.toNat i = true ∧ AlphabetAccepted i s s.ilen.toNat) → t.err = .invalidInput) ∧
    (lengthAccepted s.cfg s.ilen.toNat i = true → AlphabetAccepted i s s.ilen.toNat →
      t.err = if i = .rsDec ∧ (rsDecode s.cfg (s.input s.ilen.toNat)).1 = none then .uncorrectable else .ok)) ∧
  (∀ (s t : State) (w : Word) (r : DecodeReject), decode w = .error r → s.access (.regWrite 0 w) = .next t →
    t.err = .illegalCmd ∧ t.errpos = 0) ∧
  (∀ (s t : State) (a : HostAction), touchesResult a = false → s.access a = .next t →
    t.err = s.err ∧ t.errpos = s.errpos)

/-- R15: any 16-bit value can be stored in `ILEN`; the upper bits are ignored on write and 0 on read; no command writes
it; a length that a command does not accept ends it with `INVALID_INPUT`, the error entry of R152. That such a command
leaves the whole internal state as it was is the model's choice (log 8); `commanded`, which the entry sets, is the
model's own mark that a command has ended (log 4). -/
def Obligations.IlenRegisterFollowsItsRule : Prop :=
  (∀ (s : State) (v : Word), s.access (.regWrite 2 v) = .next { s with ilen := v.extractLsb' 0 16 }) ∧
  (∀ s : State, (s.readReg 2).extractLsb' 0 16 = s.ilen ∧ (s.readReg 2).extractLsb' 16 16 = 0) ∧
  (∀ (i : Instr) (s t : State), exec i s = .next t → t.ilen = s.ilen) ∧
  (∀ (i : Instr) (s : State), lengthAccepted s.cfg s.ilen.toNat i = false →
    exec i s = .next (afterError s .invalidInput s.inner))

/-- R16: `OLEN` is read only, its upper bits read 0; after a command it is 0 if the command failed and otherwise the
length of its result, whose cells are exactly the specified cells of `OBUF`. -/
def Obligations.OlenRegisterFollowsItsRule : Prop :=
  (∀ (s : State) (v : Word), s.access (.regWrite 3 v) = .next s) ∧
  (∀ s : State, (s.readReg 3).extractLsb' 0 16 = s.olen ∧ (s.readReg 3).extractLsb' 16 16 = 0) ∧
  (∀ (i : Instr) (s t : State), s.cfg.legal = true → exec i s = .next t →
    (t.err ≠ .ok → t.olen = 0) ∧
    (t.err = .ok → t.olen.toNat = resultLength s.cfg s.ilen.toNat i) ∧
    (∀ k, (t.obuf.read k).isSome = decide (k < t.olen.toNat)))

/-- R17: the fields of `CFG` for every legal instance, its value with the defaults, its read-only access, and that no
step ever changes it. -/
def Obligations.CfgRegisterNeverChanges : Prop :=
  (∀ s : State, s.cfg.legal = true →
    ((s.readReg 4).extractLsb' 0 8).toNat = s.cfg.nsym ∧ ((s.readReg 4).extractLsb' 8 8).toNat = s.cfg.nsym / 2 ∧
      ((s.readReg 4).extractLsb' 16 16).toNat = s.cfg.bufsz) ∧
  State.reset.readReg 4 = 0x0200050A ∧
  (∀ (s : State) (v : Word), s.access (.regWrite 4 v) = .next s) ∧
  (∀ s t : State, step s = .next t → t.cfg = s.cfg ∧ t.readReg 4 = s.readReg 4)

/-- R32: reads change nothing of the block (`draws` is the model's own counter, log 4), a read of a specified cell, or
of any cell before the first command, does not even advance that counter, and writes to read-only elements change
nothing. -/
def Obligations.AccessesHaveNoHiddenEffect : Prop :=
  (∀ (s : State) (n : Nat), s.access (.regRead n) = .next { s with answer := some (.word (s.readReg n)) }) ∧
  (∀ (s : State) (i : Nat),
    s.access (.memRead .ibuf i) = .next { s with answer := some (.cell (s.ibufCell i)) }) ∧
  (∀ (s : State) (i : Nat), ∃ (v : Byte) (d : Nat),
    s.access (.memRead .obuf i) = .next { s with answer := some (.cell v), draws := d }) ∧
  (∀ (s : State) (i : Nat) (b : Byte), s.obuf.read i = some b →
    s.access (.memRead .obuf i) = .next { s with answer := some (.cell b) }) ∧
  (∀ (s : State) (i : Nat), s.commanded = false → ∃ v : Byte,
    s.access (.memRead .obuf i) = .next { s with answer := some (.cell v) }) ∧
  (∀ (s : State) (n : Nat) (v : Word), n = 1 ∨ n = 3 ∨ n = 4 → s.access (.regWrite n v) = .next s) ∧
  (∀ (s : State) (i : Nat) (v : Byte), s.access (.memWrite .obuf i v) = .next s)

/-- R36: an access to a register above 4 or to a cell from `BUFSZ` on has no step: it is refused, under its own name. -/
def Obligations.OutOfRangeAccessIsRefused : Prop :=
  ∀ (s : State) (a : HostAction) (rest : List HostAction), s.pending = a :: rest →
    ((∃ n, 4 < n ∧ (a = .regRead n ∨ ∃ v, a = .regWrite n v)) ∨
      (∃ sp i, s.cfg.bufsz ≤ i ∧ (a = .memRead sp i ∨ ∃ v, a = .memWrite sp i v))) →
    step s = .refused (.accessOutOfRange a)

/-- R19, R166, U1, U2: what a read of an `OBUF` cell from `OLEN` on answers. After a command it draws a free value, a new
one at each read. Since reset and before any command it is the free value of that cell, and a second read gives the same
byte. That the first form counts its draws, and that it begins with the first command, are the model's choice (log 4). -/
def Obligations.UnspecifiedObufCellReadsFree : Prop :=
  (∀ (s : State) (i : Nat), s.BuffersOk → s.olen.toNat ≤ i → s.commanded = true →
    s.access (.memRead .obuf i) =
      .next { s with answer := some (.cell (Config.obufDraw s.draws)), draws := s.draws + 1 }) ∧
  (∀ (s : State) (i : Nat), s.BuffersOk → s.olen.toNat ≤ i → s.commanded = false →
    s.access (.memRead .obuf i) = .next { s with answer := some (.cell (Config.obufPowerUp s.epoch i)) }) ∧
  (∀ (s t u : State) (i : Nat), s.commanded = false → s.access (.memRead .obuf i) = .next t →
    t.access (.memRead .obuf i) = .next u → u = t)

/-- R51: loading a sequence puts it into `IBUF[0..n-1]` and its length into `ILEN`, in `n + 1` accesses. -/
def Obligations.LoadPutsTheSequenceIntoTheBuffer : Prop :=
  ∀ (s : State) (cells : List Byte), s.cfg.legal = true → cells.length ≤ s.cfg.bufsz →
    ∃ t : State, Host.Core.run Sys2Proof.core (cells.length + 1) (s.withLine (.loadBytes cells)) = .next t ∧
      t.input cells.length = cells ∧ t.ilen.toNat = cells.length ∧ t.pending = s.pending ∧
      t.cfg = s.cfg ∧ t.opc = s.opc ∧ t.err = s.err ∧ t.errpos = s.errpos ∧ t.olen = s.olen ∧ t.obuf = s.obuf ∧
      t.commanded = s.commanded ∧ (∀ i, cells.length ≤ i → t.ibufCell i = s.ibufCell i)

/-! ### What every command does and leaves -/

/-- R18, R52, R152: the frame of the six commands. Each changes nothing but `STATUS`, `OLEN`, `OBUF` and the internal
state of its own codec; every `IBUF` cell reads as before; and the only specified cells of `OBUF` afterwards are
`0..OLEN-1` (R19 makes every other cell unspecified). Which part of the internal state a codec leaves changed is log 8's
choice, and `commanded` the model's own mark that a command has ended (log 4). -/
def Obligations.CommandsChangeOnlyTheirResults : Prop :=
  ∀ (i : Instr) (s t : State), s.cfg.legal = true → exec i s = .next t →
    (t.cfg = s.cfg ∧ t.opc = s.opc ∧ t.ilen = s.ilen ∧ t.ibuf = s.ibuf ∧ t.epoch = s.epoch ∧ t.draws = s.draws ∧
      t.pending = s.pending ∧ t.answer = s.answer ∧ t.commanded = true) ∧
    (∀ k, t.ibufCell k = s.ibufCell k) ∧
    (∀ k, t.olen.toNat ≤ k → t.obuf.read k = none) ∧
    (i = .hamEnc ∨ i = .hamDec → t.inner = s.inner) ∧
    (i = .convEnc → t.inner = { s.inner with sr := t.inner.sr }) ∧
    (i = .vitDec → t.inner = { s.inner with metrics := t.inner.metrics, surv := t.inner.surv }) ∧
    (i = .rsEnc → t.inner = { s.inner with par := t.inner.par }) ∧
    (i = .rsDec → t.inner = { s.inner with rs := t.inner.rs })

/-- R46, R52: each command completes with a result of the stated length, on input of a length and an alphabet it
accepts (for `RS_DEC`, here, on a codeword; words with errors have statements of their own). -/
def Obligations.EveryCommandCompletesOnValidInput : Prop :=
  ∀ (i : Instr) (s : State), lengthAccepted s.cfg s.ilen.toNat i = true → AlphabetAccepted i s s.ilen.toNat →
    (i = .rsDec → isCodeword s.cfg.nsym (s.input s.ilen.toNat) = true) →
    ∃ t, exec i s = .next t ∧ t.err = .ok ∧
      t.olen = BitVec.ofNat 16 (resultLength s.cfg s.ilen.toNat i) ∧
      t.obuf.map Prod.fst = List.range (resultLength s.cfg s.ilen.toNat i)

/-- R146: the causes of `INVALID_INPUT`, complete; and what it leaves, the error entry of R152. That a command that fails
its checks leaves the whole internal state as it was is the model's choice (log 8); `commanded`, which the entry sets, is
the model's own mark that a command has ended (log 4). -/
def Obligations.InvalidInputCausesAreComplete : Prop :=
  ∀ (i : Instr) (s t : State), exec i s = .next t →
    (t.err = .invalidInput ↔
      lengthAccepted s.cfg s.ilen.toNat i = false ∨ ¬ AlphabetAccepted i s s.ilen.toNat) ∧
    (t.err = .invalidInput → t = afterError s .invalidInput s.inner)

/-- R152: a write to `CMD` always has a next state; when it ends with an error, the code is written, `ERRPOS` and `OLEN`
are 0, no cell of `OBUF` is specified, `OPC` holds the low byte, and nothing else changed. That `RS_DEC` leaves its own
scratch changed when it ends with `UNCORRECTABLE`, and every other error the whole internal state as it was, is the
model's choice (log 8); `commanded` is the model's own mark that a command has ended (log 4). -/
def Obligations.ErrorEntryChangesExactlyThis : Prop :=
  ∀ (s : State) (w : Word) (rest : List HostAction), s.pending = .regWrite 0 w :: rest →
    ∃ t, step s = .next t ∧
      (t.err ≠ .ok →
        t = afterError { s with pending := rest, answer := none, opc := w.extractLsb' 0 8 } t.err t.inner) ∧
      (t.err = .invalidInput ∨ t.err = .illegalCmd → t.inner = s.inner) ∧
      (t.err = .uncorrectable → t.inner = { s.inner with rs := t.inner.rs })

/-- R147, first half: `RS_DEC` alone can end with `UNCORRECTABLE`, and only on an accepted length. -/
def Obligations.OnlyRsDecIsUncorrectable : Prop :=
  ∀ (i : Instr) (s t : State), exec i s = .next t → t.err = .uncorrectable →
    i = .rsDec ∧ lengthAccepted s.cfg s.ilen.toNat .rsDec = true ∧ t.olen = 0 ∧ t.errpos = 0 ∧ t.obuf = []

/-- R25, R20: the result of a command is a function of the input cells, `ILEN`, the opcode and the parameters: two
states that agree on those get the same `STATUS`, `OLEN` and `OBUF`, whatever earlier commands left. -/
def Obligations.ResultDependsOnTheInputAlone : Prop :=
  ∀ (i : Instr) (s s' t t' : State), s.cfg = s'.cfg → s.ilen = s'.ilen →
    (∀ k, k < s.ilen.toNat → s.ibufCell k = s'.ibufCell k) → exec i s = .next t → exec i s' = .next t' →
      t.err = t'.err ∧ t.errpos = t'.errpos ∧ t.olen = t'.olen ∧ t.obuf = t'.obuf

/-! ### Hamming -/

/-- R61: the codeword, the flags, the errors, the encoding and the linearity of `HAM_ENC`. -/
def Obligations.HamEncWritesTheCodeword : Prop :=
  (∀ (s : State) (d0 d1 d2 d3 : Bool), s.ilen = 4 → s.input 4 = cellsOf [d0, d1, d2, d3] →
    exec .hamEnc s = .next (afterResult s
      (cellsOf [d0 ^^ d1 ^^ d3, d0 ^^ d2 ^^ d3, d0, d1 ^^ d2 ^^ d3, d1, d2, d3]) 0 s.inner)) ∧
  (∀ s t : State, exec .hamEnc s = .next t → t.err = .ok ∨ t.err = .invalidInput) ∧
  encode .hamEnc = 0x00000001 ∧
  (∀ a b : List Bool, a.length = 4 → b.length = 4 →
    hamEncode (xorBits a b) = xorBits (hamEncode a) (hamEncode b))

/-- R62, R63: the syndrome, the flip, the data bits, the flags, the errors and the encoding of `HAM_DEC`. -/
def Obligations.HamDecWritesTheCorrectedData : Prop :=
  (∀ (s : State) (e : List Bool), e.length = 7 → s.ilen = 7 → s.input 7 = cellsOf e →
    let s1 := bitAt e 0 ^^ bitAt e 2 ^^ bitAt e 4 ^^ bitAt e 6
    let s2 := bitAt e 1 ^^ bitAt e 2 ^^ bitAt e 5 ^^ bitAt e 6
    let s3 := bitAt e 3 ^^ bitAt e 4 ^^ bitAt e 5 ^^ bitAt e 6
    let pos := s1.toNat + 2 * s2.toNat + 4 * s3.toNat
    let c := if pos = 0 then e else flipAt e (pos - 1)
    exec .hamDec s = .next (afterResult s (cellsOf [bitAt c 2, bitAt c 4, bitAt c 5, bitAt c 6])
      (BitVec.ofNat 4 pos) s.inner) ∧ (∃ d, d.length = 4 ∧ c = hamEncode d)) ∧
  (∀ s t : State, exec .hamDec s = .next t → t.err = .ok ∨ t.err = .invalidInput) ∧
  encode .hamDec = 0x00000002

/-- R64: every codeword decodes to its data with position 0, and every single flip of a codeword decodes to its data
with the flipped position. -/
def Obligations.HamDecCorrectsEverySingleError : Prop :=
  ∀ (s : State) (d : List Bool), d.length = 4 → s.ilen = 7 →
    (s.input 7 = cellsOf (hamEncode d) → exec .hamDec s = .next (afterResult s (cellsOf d) 0 s.inner)) ∧
    (∀ p, p < 7 → s.input 7 = cellsOf (flipAt (hamEncode d) p) →
      exec .hamDec s = .next (afterResult s (cellsOf d) (BitVec.ofNat 4 (p + 1)) s.inner))

/-- R65: two flips are silently mis-corrected: `ERR = 0`, `ERRPOS` is the exclusive or of the two positions, which is
neither 0 nor one of them, and the data are those of another codeword. -/
def Obligations.HamDecMiscorrectsDoubleErrors : Prop :=
  ∀ (s : State) (d : List Bool) (p q : Nat), d.length = 4 → p < q → q < 7 → s.ilen = 7 →
    s.input 7 = cellsOf (flipAt (flipAt (hamEncode d) p) q) →
      (∃ d' : List Bool, d'.length = 4 ∧ d' ≠ d ∧
        exec .hamDec s = .next (afterResult s (cellsOf d') (BitVec.ofNat 4 ((p + 1) ^^^ (q + 1))) s.inner)) ∧
      (p + 1) ^^^ (q + 1) ≠ 0 ∧ (p + 1) ^^^ (q + 1) ≠ p + 1 ∧ (p + 1) ^^^ (q + 1) ≠ q + 1

/-! ### The convolutional code -/

/-- R71: the transition table, and its reading backwards. -/
def Obligations.TrellisMatchesTheTable : Prop :=
  (let f := false
   let t := true
   (convNext ⟨f, f⟩ f, convOut ⟨f, f⟩ f) = (⟨f, f⟩, (f, f)) ∧ (convNext ⟨f, f⟩ t, convOut ⟨f, f⟩ t) = (⟨t, f⟩, (t, t)) ∧
   (convNext ⟨f, t⟩ f, convOut ⟨f, t⟩ f) = (⟨f, f⟩, (t, t)) ∧ (convNext ⟨f, t⟩ t, convOut ⟨f, t⟩ t) = (⟨t, f⟩, (f, f)) ∧
   (convNext ⟨t, f⟩ f, convOut ⟨t, f⟩ f) = (⟨f, t⟩, (t, f)) ∧ (convNext ⟨t, f⟩ t, convOut ⟨t, f⟩ t) = (⟨t, t⟩, (f, t)) ∧
   (convNext ⟨t, t⟩ f, convOut ⟨t, t⟩ f) = (⟨f, t⟩, (f, t)) ∧ (convNext ⟨t, t⟩ t, convOut ⟨t, t⟩ t) = (⟨t, t⟩, (t, f))) ∧
  (∀ (p : ConvState) (b x y : Bool), convNext p b = ⟨x, y⟩ ↔ b = x ∧ (p = ⟨y, false⟩ ∨ p = ⟨y, true⟩))

/-- R70, R72: `CONV_ENC` writes two bits for each message bit, the exclusive or of all three taps and of the first and
third tap; the length, the flags and the encoding; and the register holds the last two bits (R21; that it keeps them is
log 8). -/
def Obligations.ConvEncWritesBothGenerators : Prop :=
  (∀ (s : State) (m : List Bool), 1 ≤ m.length → m.length ≤ s.cfg.bufsz / 2 → s.ilen.toNat = m.length →
    s.input m.length = cellsOf m →
    ∃ out : List Bool, out.length = 2 * m.length ∧
      (∀ i, i < m.length →
        bitAt out (2 * i) = (bitAt m i ^^ bitBefore m i 1 ^^ bitBefore m i 2) ∧
        bitAt out (2 * i + 1) = (bitAt m i ^^ bitBefore m i 2)) ∧
      exec .convEnc s = .next (afterResult s (cellsOf out) 0
        { s.inner with sr := { s0 := bitBefore m m.length 1, s1 := bitBefore m m.length 2 } })) ∧
  (∀ s t : State, exec .convEnc s = .next t → t.err = .ok ∨ t.err = .invalidInput) ∧
  encode .convEnc = 0x00000003

/-- R78, R79: `VIT_DEC` writes the path of the reference formulation, one bit for each segment, for every input it
accepts. -/
def Obligations.VitDecWritesTheReferencePath : Prop :=
  (∀ (s : State) (r : List Bool), r.length % 2 = 0 → 2 ≤ r.length → r.length ≤ s.cfg.bufsz →
    s.ilen.toNat = r.length → s.input r.length = cellsOf r →
    ∃ (path : List Bool) (ms : Quad (Option (BitVec 16))) (rows : List (Quad (Option Bool))),
      viterbiReference r = some path ∧ path.length = r.length / 2 ∧
      exec .vitDec s = .next (afterResult s (cellsOf path) 0 { s.inner with metrics := ms, surv := rows })) ∧
  (∀ s t : State, exec .vitDec s = .next t → t.err = .ok ∨ t.err = .invalidInput) ∧
  encode .vitDec = 0x00000004

/-- R80: the decoded message is one whose codeword is nearest to the received word, the metric of the final state is
that distance, and an undisturbed codeword decodes to its message. -/
def Obligations.ViterbiFindsANearestMessage : Prop :=
  (∀ r : List Bool, r.length % 2 = 0 →
    (viterbi r).length = r.length / 2 ∧
    (∀ m' : List Bool, m'.length = r.length / 2 →
      bitDistance (convEncode (viterbi r)) r ≤ bitDistance (convEncode m') r) ∧
    (let final := (viterbiForward metricsStart (segments r)).1
     final.get (bestState final) = some (bitDistance (convEncode (viterbi r)) r))) ∧
  (∀ m : List Bool, viterbi (convEncode m) = m)

/-- R83: a single bit error in the last segment makes the last decoded bit 0 and leaves the others right, for messages
of every length. (R83 evaluates it for up to 8 bits; the general form is derived from R76 and R80.) -/
def Obligations.LastSegmentErrorClearsTheLastBit : Prop :=
  ∀ (m : List Bool) (b : Bool) (j : Nat), j < 2 →
    viterbi (flipAt (convEncode (m ++ [b])) (2 * m.length + j)) = m ++ [false]

/-! ### The field -/

/-- R90, R91, R92: `gfMul` is the multiplication modulo x^8+x^4+x^3+x^2+1: it is bilinear over exclusive or, has 1 and 0,
is commutative and associative, and doubles as the polynomial says. -/
def Obligations.FieldMultiplicationLaws : Prop :=
  (∀ a b c : Byte, gfMul a b = gfMul b a ∧ gfMul (gfMul a b) c = gfMul a (gfMul b c) ∧
    gfMul a (gfAdd b c) = gfAdd (gfMul a b) (gfMul a c)) ∧
  (∀ a : Byte, gfMul a 1 = a ∧ gfMul a 0 = 0 ∧ gfAdd a a = 0) ∧
  (∀ i, i < 7 → gfMul (1 <<< i) gfAlpha = 1 <<< (i + 1)) ∧ gfMul 0x80 gfAlpha = 0x1D

/-- R94: the inverse is the one element with product 1, the 254th power, and the power of α that `LOG` gives; division
is multiplication by it. -/
def Obligations.FieldInverseIsTheInverse : Prop :=
  ∀ (a : Byte) (h : a ≠ 0),
    gfMul a (gfInv a h) = 1 ∧ (∀ b, gfMul a b = 1 → b = gfInv a h) ∧ gfInv a h = gfPow a 254 ∧
      (∃ l, gfLog a = some l ∧ gfInv a h = gfExp ((255 - l) % 255)) ∧
      (∀ c, gfDiv c a h = gfMul c (gfInv a h))

/-- R93, R95: every non-zero element has a logarithm below 255, `EXP` has period 255, and powers go through the
logarithm. -/
def Obligations.FieldPowersGoThroughTheLogarithm : Prop :=
  (∀ a : Byte, a ≠ 0 → ∃ l, l < 255 ∧ gfLog a = some l ∧ gfExp l = a ∧ ∀ n, gfPow a n = gfExp ((l * n) % 255)) ∧
    gfLog 0 = none ∧ (∀ n, gfExp n = gfExp (n % 255)) ∧ (∀ a : Byte, gfPow a 0 = 1) ∧
    (∀ n, 1 ≤ n → gfPow 0 n = 0)

/-- R97: the generator is monic of degree `NSYM`, it is the product of the factors `x - α^i`, and for `NSYM = 10` it is
the polynomial of the table. -/
def Obligations.GeneratorIsTheProductOfItsFactors : Prop :=
  (∀ n : Nat, (rsGenerator n).length = n + 1 ∧ (rsGenerator n).head? = some 1 ∧
    ∀ x : Byte, polyEval (rsGenerator n) x =
      (List.range n).foldl (fun y i => gfMul y (gfAdd x (gfExp i))) 1) ∧
  rsGenerator 10 = [1, 216, 194, 159, 111, 199, 94, 95, 113, 157, 193]

/-! ### Reed-Solomon -/

/-- R105, R106, R107: `RS_ENC` writes the message and then `NSYM` parity symbols, and the whole is a codeword; the
length, the flags, the errors and the encoding. That the parity stays in `PAR` after the command and that the rest of the
internal state is as before (`{ s.inner with par := par }`) is the model's choice (log 8). -/
def Obligations.RsEncWritesASystematicCodeword : Prop :=
  (∀ s : State, s.cfg.legal = true → 1 ≤ s.ilen.toNat → s.ilen.toNat ≤ 255 - s.cfg.nsym →
    ∃ par : List Byte, par.length = s.cfg.nsym ∧
      isCodeword s.cfg.nsym (s.input s.ilen.toNat ++ par) = true ∧
      exec .rsEnc s = .next (afterResult s (s.input s.ilen.toNat ++ par) 0 { s.inner with par := par })) ∧
  (∀ s t : State, exec .rsEnc s = .next t → t.err = .ok ∨ t.err = .invalidInput) ∧
  encode .rsEnc = 0x00000005

/-- R109: two different codewords of one length up to 255 differ in at least `NSYM + 1` symbols, so no word is within
`T` symbols of two of them. -/
def Obligations.CodewordsAreFarApart : Prop :=
  (∀ (nsym : Nat) (c c' : List Byte), c.length = c'.length → c.length ≤ 255 → isCodeword nsym c = true →
    isCodeword nsym c' = true → c ≠ c' → nsym + 1 ≤ symbolDistance c c') ∧
  (∀ (p : Params) (r c c' : List Byte), r.length ≤ 255 → CloseCodeword p r c → CloseCodeword p r c' → c = c')

/-- R108, one half: whatever `RS_DEC` returns is the message part of a codeword within `T` symbols of the received
word. -/
def Obligations.RsDecAnswersWithANearCodeword : Prop :=
  ∀ s t : State, s.cfg.legal = true → exec .rsDec s = .next t → t.err = .ok →
    ∃ c, CloseCodeword s.cfg (s.input s.ilen.toNat) c ∧
      t = afterResult s (c.take (s.ilen.toNat - s.cfg.nsym)) 0 { s.inner with rs := t.inner.rs }

/-- R108: `RS_DEC` on an accepted length is bounded-distance decoding: if a codeword lies within `T` symbols of the
received word, its first `K` symbols are the result; if none does, the command ends with `UNCORRECTABLE`. -/
def Obligations.RsDecIsBoundedDistanceDecoding : Prop :=
  ∀ s : State, s.cfg.legal = true → s.cfg.nsym + 1 ≤ s.ilen.toNat → s.ilen.toNat ≤ 255 →
    (∀ c, CloseCodeword s.cfg (s.input s.ilen.toNat) c →
      ∃ rs, exec .rsDec s =
        .next (afterResult s (c.take (s.ilen.toNat - s.cfg.nsym)) 0 { s.inner with rs := rs })) ∧
    ((¬ ∃ c, CloseCodeword s.cfg (s.input s.ilen.toNat) c) →
      ∃ rs, exec .rsDec s = .next (afterError s .uncorrectable { s.inner with rs := rs }))

/-- R116 (a): decoding what `RS_ENC` wrote gives the message back. -/
def Obligations.RsRoundTripReturnsTheMessage : Prop :=
  ∀ (s : State) (m : List Byte), s.cfg.legal = true → 1 ≤ m.length → m.length ≤ 255 - s.cfg.nsym →
    s.ilen.toNat = m.length + s.cfg.nsym → s.input s.ilen.toNat = rsEncode s.cfg.nsym m →
    ∃ rs, exec .rsDec s = .next (afterResult s m 0 { s.inner with rs := rs })

/-- R116 (b) for one symbol: with `NSYM` at least 2, a codeword with any one symbol changed, in any position, decodes
to its message part. -/
def Obligations.RsDecCorrectsOneSymbolError : Prop :=
  ∀ (s : State) (c : List Byte) (p : Nat) (v : Byte), s.cfg.legal = true → 2 ≤ s.cfg.nsym →
    s.cfg.nsym + 1 ≤ c.length → c.length ≤ 255 → isCodeword s.cfg.nsym c = true → p < c.length →
    s.ilen.toNat = c.length → s.input c.length = c.set p v →
    ∃ rs, exec .rsDec s = .next (afterResult s (c.take (c.length - s.cfg.nsym)) 0 { s.inner with rs := rs })

/-- R116 (c): a word more than `T` symbols from the codeword of `m` never decodes to `m`: the command ends with
`UNCORRECTABLE` or with another message, whose codeword is within `T`. -/
def Obligations.RsDecNeverReturnsADistantMessage : Prop :=
  ∀ (s t : State) (m : List Byte), s.cfg.legal = true → 1 ≤ m.length → m.length ≤ 255 - s.cfg.nsym →
    s.ilen.toNat = m.length + s.cfg.nsym →
    s.cfg.t < symbolDistance (rsEncode s.cfg.nsym m) (s.input s.ilen.toNat) → exec .rsDec s = .next t →
    t.err = .uncorrectable ∨
      ∃ m' : List Byte, m' ≠ m ∧ m'.length = m.length ∧ t.err = .ok ∧ t.obuf = Memory.ofSeq m' ∧
        symbolDistance (rsEncode s.cfg.nsym m') (s.input s.ilen.toNat) ≤ s.cfg.t

/-! ### Runs -/

/-- The reset state of every legal instance meets the invariant. -/
def Obligations.ResetMeetsTheInvariant : Prop :=
  State.reset.Inv ∧ ∀ p : Params, p.legal = true → (State.resetOf p).Inv

/-- The invariant is kept by every step: legal parameters, canonical buffers of existing cells, `OBUF` specified exactly
below `OLEN`, `STATUS` as R14 allows, the internal state of its sizes, path metrics at most `BUFSZ` (R14, R16, R18, R19,
R22 to R24), and, until a command has ended since reset, `CMD`, `STATUS`, `OLEN` and `OBUF` as reset left them (R166). -/
def Obligations.StepKeepsTheInvariant : Prop :=
  ∀ s t : State, s.Inv → step s = .next t → t.Inv

/-- R152, R169: as long as the accesses are inside the ranges, the block serves them all, one a step, and none stops
it. -/
def Obligations.InRangeAccessesAreAllServed : Prop :=
  ∀ s : State, s.InRange →
    ∃ t : State, Host.Core.run Sys2Proof.core s.pending.length s = .next t ∧ t.pending = [] ∧ t.cfg = s.cfg

/-- R39, for `IBUF`: a read returns the value of the most recent write to the same cell, whatever accesses and commands
(no other write of that cell and no reset) come in between. -/
def Obligations.IbufReadReturnsTheLastWrite : Prop :=
  ∀ (s : State) (i : Nat) (v : Byte) (mid rest : List HostAction), s.InRange →
    s.pending = .memWrite .ibuf i v :: (mid ++ .memRead .ibuf i :: rest) →
    mid.all (fun a => !touchesIbuf i a) = true →
    ∃ t : State, Host.Core.run Sys2Proof.core (mid.length + 2) s = .next t ∧ t.answer = some (.cell v) ∧
      t.pending = rest

/-- R39, R168: the results of a command stay until the next command (or reset): a later read of a specified `OBUF` cell
gives it, and `STATUS` and `OLEN` are still those of the command. -/
def Obligations.ResultsStayUntilTheNextCommand : Prop :=
  ∀ (s : State) (j : Nat) (b : Byte) (mid rest : List HostAction), s.InRange → s.obuf.read j = some b →
    s.pending = mid ++ .memRead .obuf j :: rest → mid.all (fun a => !touchesResult a) = true →
    ∃ t : State, Host.Core.run Sys2Proof.core (mid.length + 1) s = .next t ∧ t.answer = some (.cell b) ∧
      t.obuf = s.obuf ∧ t.readReg 1 = s.readReg 1 ∧ t.readReg 3 = s.readReg 3 ∧ t.pending = rest
end

