-- ==== Sys2Proof/Laws/Field.lean ====
section
/-! SUPPORT. Small laws of the field operations and of the code. -/

namespace Sys2Proof.Machine

@[simp] theorem gfMul_zero_left : ∀ x : Byte, gfMul 0#8 x = 0#8 := by decide +kernel

theorem polyEval_nil (x : Byte) : polyEval [] x = 0 := rfl

/-- One more symbol at the end of a sequence is one more step of Horner's rule (R96). -/
theorem polyEval_concat (c : List Byte) (b x : Byte) : polyEval (c ++ [b]) x = gfMul (polyEval c x) x ^^^ b := by
  simp [polyEval]

/-- The zero sequence is a codeword of every length (V19). -/
theorem isCodeword_replicate_zero (nsym n : Nat) : isCodeword nsym (List.replicate n 0) = true := by
  have h : ∀ x, polyEval (List.replicate n 0#8) x = 0#8 := by
    intro x
    induction n with
    | zero => rfl
    | succ n ih => rw [List.replicate_succ', polyEval_concat, ih]; simp
  simp [isCodeword, h]

/-- Membership in the code, root by root (R105). -/
theorem isCodeword_iff (nsym : Nat) (c : List Byte) :
    isCodeword nsym c = true ↔ ∀ j, j < nsym → polyEval c (gfExp j) = 0 := by simp [isCodeword]

/-- A word is a codeword exactly when its syndromes are all 0 (R110). -/
theorem syndromes_all_zero_iff (nsym : Nat) (r : List Byte) :
    ((rsSyndromes nsym r).all fun x => decide (x = 0)) = isCodeword nsym r := by
  simp [rsSyndromes, isCodeword, Function.comp_def]

@[simp] theorem rsSyndromes_length (nsym : Nat) (r : List Byte) : (rsSyndromes nsym r).length = nsym := by
  simp [rsSyndromes]

/-- Corrections keep the length of the word (R113). -/
theorem forneyCorrect_length (r lam om : List Byte) (ps : List Nat) (c c' : List Byte)
    (h : forneyCorrect r lam om ps c = some c') : c'.length = c.length := by
  induction ps generalizing c with
  | nil => simp only [forneyCorrect, Option.some.injEq] at h; rw [h]
  | cons p ps ih =>
    simp only [forneyCorrect] at h
    split at h
    · cases h
    · simpa using ih _ h

/-- Everything the decoder of R110 to R114 can do: the message part of the received word when that is a codeword, the
message part of a corrected word that is a codeword, or no message. -/
theorem rsDecode_cases (p : Params) (r : List Byte) :
    (isCodeword p.nsym r = true ∧ (rsDecode p r).1 = some (r.take (r.length - p.nsym))) ∨
      (∃ (lam om : List Byte) (ps : List Nat) (c : List Byte), ps.length ≤ p.t ∧
        forneyCorrect r lam om ps r = some c ∧ isCodeword p.nsym c = true ∧
        (rsDecode p r).1 = some (c.take (r.length - p.nsym))) ∨
      (rsDecode p r).1 = none := by
  unfold rsDecode
  simp only [syndromes_all_zero_iff]
  split
  · exact .inl ⟨by assumption, rfl⟩
  · split
    · exact .inr (.inr rfl)
    · rename_i h1
      split
      · exact .inr (.inr rfl)
      · rename_i h2
        split
        · exact .inr (.inr rfl)
        · rename_i c hc
          split
          · rename_i h3
            refine .inr (.inl ⟨_, _, _, c, ?_, hc, h3, rfl⟩)
            omega
          · exact .inr (.inr rfl)

end Sys2Proof.Machine
end

