-- ==== Sys2Proof/Laws/State.lean ====
section
/-! SUPPORT. One lemma for each field of State and each named update of it: what the field is afterwards. -/

namespace Sys2Proof.Machine

@[simp] theorem State.raise_cfg (s : State) (e : ErrCode) :
    (s.raise e).cfg = s.cfg := rfl
@[simp] theorem State.raise_opc (s : State) (e : ErrCode) :
    (s.raise e).opc = s.opc := rfl
@[simp] theorem State.raise_err (s : State) (e : ErrCode) :
    (s.raise e).err = e := rfl
@[simp] theorem State.raise_errpos (s : State) (e : ErrCode) :
    (s.raise e).errpos = 0 := rfl
@[simp] theorem State.raise_ilen (s : State) (e : ErrCode) :
    (s.raise e).ilen = s.ilen := rfl
@[simp] theorem State.raise_olen (s : State) (e : ErrCode) :
    (s.raise e).olen = 0 := rfl
@[simp] theorem State.raise_ibuf (s : State) (e : ErrCode) :
    (s.raise e).ibuf = s.ibuf := rfl
@[simp] theorem State.raise_obuf (s : State) (e : ErrCode) :
    (s.raise e).obuf = [] := rfl
@[simp] theorem State.raise_inner (s : State) (e : ErrCode) :
    (s.raise e).inner = s.inner := rfl
@[simp] theorem State.raise_epoch (s : State) (e : ErrCode) :
    (s.raise e).epoch = s.epoch := rfl
@[simp] theorem State.raise_commanded (s : State) (e : ErrCode) :
    (s.raise e).commanded = true := rfl
@[simp] theorem State.raise_draws (s : State) (e : ErrCode) :
    (s.raise e).draws = s.draws := rfl
@[simp] theorem State.raise_pending (s : State) (e : ErrCode) :
    (s.raise e).pending = s.pending := rfl
@[simp] theorem State.raise_answer (s : State) (e : ErrCode) :
    (s.raise e).answer = s.answer := rfl

@[simp] theorem State.succeed_cfg (s : State) (res : List Byte) (pos : BitVec 4) :
    (s.succeed res pos).cfg = s.cfg := rfl
@[simp] theorem State.succeed_opc (s : State) (res : List Byte) (pos : BitVec 4) :
    (s.succeed res pos).opc = s.opc := rfl
@[simp] theorem State.succeed_err (s : State) (res : List Byte) (pos : BitVec 4) :
    (s.succeed res pos).err = .ok := rfl
@[simp] theorem State.succeed_errpos (s : State) (res : List Byte) (pos : BitVec 4) :
    (s.succeed res pos).errpos = pos := rfl
@[simp] theorem State.succeed_ilen (s : State) (res : List Byte) (pos : BitVec 4) :
    (s.succeed res pos).ilen = s.ilen := rfl
@[simp] theorem State.succeed_olen (s : State) (res : List Byte) (pos : BitVec 4) :
    (s.succeed res pos).olen = BitVec.ofNat 16 res.length := rfl
@[simp] theorem State.succeed_ibuf (s : State) (res : List Byte) (pos : BitVec 4) :
    (s.succeed res pos).ibuf = s.ibuf := rfl
@[simp] theorem State.succeed_obuf (s : State) (res : List Byte) (pos : BitVec 4) :
    (s.succeed res pos).obuf = Memory.ofSeq res := rfl
@[simp] theorem State.succeed_inner (s : State) (res : List Byte) (pos : BitVec 4) :
    (s.succeed res pos).inner = s.inner := rfl
@[simp] theorem State.succeed_epoch (s : State) (res : List Byte) (pos : BitVec 4) :
    (s.succeed res pos).epoch = s.epoch := rfl
@[simp] theorem State.succeed_commanded (s : State) (res : List Byte) (pos : BitVec 4) :
    (s.succeed res pos).commanded = true := rfl
@[simp] theorem State.succeed_draws (s : State) (res : List Byte) (pos : BitVec 4) :
    (s.succeed res pos).draws = s.draws := rfl
@[simp] theorem State.succeed_pending (s : State) (res : List Byte) (pos : BitVec 4) :
    (s.succeed res pos).pending = s.pending := rfl
@[simp] theorem State.succeed_answer (s : State) (res : List Byte) (pos : BitVec 4) :
    (s.succeed res pos).answer = s.answer := rfl

@[simp] theorem State.recordOpc_cfg (s : State) (c : BitVec 8) :
    (s.recordOpc c).cfg = s.cfg := rfl
@[simp] theorem State.recordOpc_opc (s : State) (c : BitVec 8) :
    (s.recordOpc c).opc = c := rfl
@[simp] theorem State.recordOpc_err (s : State) (c : BitVec 8) :
    (s.recordOpc c).err = s.err := rfl
@[simp] theorem State.recordOpc_errpos (s : State) (c : BitVec 8) :
    (s.recordOpc c).errpos = s.errpos := rfl
@[simp] theorem State.recordOpc_ilen (s : State) (c : BitVec 8) :
    (s.recordOpc c).ilen = s.ilen := rfl
@[simp] theorem State.recordOpc_olen (s : State) (c : BitVec 8) :
    (s.recordOpc c).olen = s.olen := rfl
@[simp] theorem State.recordOpc_ibuf (s : State) (c : BitVec 8) :
    (s.recordOpc c).ibuf = s.ibuf := rfl
@[simp] theorem State.recordOpc_obuf (s : State) (c : BitVec 8) :
    (s.recordOpc c).obuf = s.obuf := rfl
@[simp] theorem State.recordOpc_inner (s : State) (c : BitVec 8) :
    (s.recordOpc c).inner = s.inner := rfl
@[simp] theorem State.recordOpc_epoch (s : State) (c : BitVec 8) :
    (s.recordOpc c).epoch = s.epoch := rfl
@[simp] theorem State.recordOpc_commanded (s : State) (c : BitVec 8) :
    (s.recordOpc c).commanded = s.commanded := rfl
@[simp] theorem State.recordOpc_draws (s : State) (c : BitVec 8) :
    (s.recordOpc c).draws = s.draws := rfl
@[simp] theorem State.recordOpc_pending (s : State) (c : BitVec 8) :
    (s.recordOpc c).pending = s.pending := rfl
@[simp] theorem State.recordOpc_answer (s : State) (c : BitVec 8) :
    (s.recordOpc c).answer = s.answer := rfl

@[simp] theorem State.issue_cfg (s : State) (rest : List HostAction) :
    (s.issue rest).cfg = s.cfg := rfl
@[simp] theorem State.issue_opc (s : State) (rest : List HostAction) :
    (s.issue rest).opc = s.opc := rfl
@[simp] theorem State.issue_err (s : State) (rest : List HostAction) :
    (s.issue rest).err = s.err := rfl
@[simp] theorem State.issue_errpos (s : State) (rest : List HostAction) :
    (s.issue rest).errpos = s.errpos := rfl
@[simp] theorem State.issue_ilen (s : State) (rest : List HostAction) :
    (s.issue rest).ilen = s.ilen := rfl
@[simp] theorem State.issue_olen (s : State) (rest : List HostAction) :
    (s.issue rest).olen = s.olen := rfl
@[simp] theorem State.issue_ibuf (s : State) (rest : List HostAction) :
    (s.issue rest).ibuf = s.ibuf := rfl
@[simp] theorem State.issue_obuf (s : State) (rest : List HostAction) :
    (s.issue rest).obuf = s.obuf := rfl
@[simp] theorem State.issue_inner (s : State) (rest : List HostAction) :
    (s.issue rest).inner = s.inner := rfl
@[simp] theorem State.issue_epoch (s : State) (rest : List HostAction) :
    (s.issue rest).epoch = s.epoch := rfl
@[simp] theorem State.issue_commanded (s : State) (rest : List HostAction) :
    (s.issue rest).commanded = s.commanded := rfl
@[simp] theorem State.issue_draws (s : State) (rest : List HostAction) :
    (s.issue rest).draws = s.draws := rfl
@[simp] theorem State.issue_pending (s : State) (rest : List HostAction) :
    (s.issue rest).pending = rest := rfl
@[simp] theorem State.issue_answer (s : State) (rest : List HostAction) :
    (s.issue rest).answer = none := rfl

@[simp] theorem State.reply_cfg (s : State) (a : HostAnswer) :
    (s.reply a).cfg = s.cfg := rfl
@[simp] theorem State.reply_opc (s : State) (a : HostAnswer) :
    (s.reply a).opc = s.opc := rfl
@[simp] theorem State.reply_err (s : State) (a : HostAnswer) :
    (s.reply a).err = s.err := rfl
@[simp] theorem State.reply_errpos (s : State) (a : HostAnswer) :
    (s.reply a).errpos = s.errpos := rfl
@[simp] theorem State.reply_ilen (s : State) (a : HostAnswer) :
    (s.reply a).ilen = s.ilen := rfl
@[simp] theorem State.reply_olen (s : State) (a : HostAnswer) :
    (s.reply a).olen = s.olen := rfl
@[simp] theorem State.reply_ibuf (s : State) (a : HostAnswer) :
    (s.reply a).ibuf = s.ibuf := rfl
@[simp] theorem State.reply_obuf (s : State) (a : HostAnswer) :
    (s.reply a).obuf = s.obuf := rfl
@[simp] theorem State.reply_inner (s : State) (a : HostAnswer) :
    (s.reply a).inner = s.inner := rfl
@[simp] theorem State.reply_epoch (s : State) (a : HostAnswer) :
    (s.reply a).epoch = s.epoch := rfl
@[simp] theorem State.reply_commanded (s : State) (a : HostAnswer) :
    (s.reply a).commanded = s.commanded := rfl
@[simp] theorem State.reply_draws (s : State) (a : HostAnswer) :
    (s.reply a).draws = s.draws := rfl
@[simp] theorem State.reply_pending (s : State) (a : HostAnswer) :
    (s.reply a).pending = s.pending := rfl
@[simp] theorem State.reply_answer (s : State) (a : HostAnswer) :
    (s.reply a).answer = some a := rfl

@[simp] theorem State.writeIbuf_cfg (s : State) (i : Nat) (v : Byte) :
    (s.writeIbuf i v).cfg = s.cfg := rfl
@[simp] theorem State.writeIbuf_opc (s : State) (i : Nat) (v : Byte) :
    (s.writeIbuf i v).opc = s.opc := rfl
@[simp] theorem State.writeIbuf_err (s : State) (i : Nat) (v : Byte) :
    (s.writeIbuf i v).err = s.err := rfl
@[simp] theorem State.writeIbuf_errpos (s : State) (i : Nat) (v : Byte) :
    (s.writeIbuf i v).errpos = s.errpos := rfl
@[simp] theorem State.writeIbuf_ilen (s : State) (i : Nat) (v : Byte) :
    (s.writeIbuf i v).ilen = s.ilen := rfl
@[simp] theorem State.writeIbuf_olen (s : State) (i : Nat) (v : Byte) :
    (s.writeIbuf i v).olen = s.olen := rfl
@[simp] theorem State.writeIbuf_ibuf (s : State) (i : Nat) (v : Byte) :
    (s.writeIbuf i v).ibuf = s.ibuf.write i v := rfl
@[simp] theorem State.writeIbuf_obuf (s : State) (i : Nat) (v : Byte) :
    (s.writeIbuf i v).obuf = s.obuf := rfl
@[simp] theorem State.writeIbuf_inner (s : State) (i : Nat) (v : Byte) :
    (s.writeIbuf i v).inner = s.inner := rfl
@[simp] theorem State.writeIbuf_epoch (s : State) (i : Nat) (v : Byte) :
    (s.writeIbuf i v).epoch = s.epoch := rfl
@[simp] theorem State.writeIbuf_commanded (s : State) (i : Nat) (v : Byte) :
    (s.writeIbuf i v).commanded = s.commanded := rfl
@[simp] theorem State.writeIbuf_draws (s : State) (i : Nat) (v : Byte) :
    (s.writeIbuf i v).draws = s.draws := rfl
@[simp] theorem State.writeIbuf_pending (s : State) (i : Nat) (v : Byte) :
    (s.writeIbuf i v).pending = s.pending := rfl
@[simp] theorem State.writeIbuf_answer (s : State) (i : Nat) (v : Byte) :
    (s.writeIbuf i v).answer = s.answer := rfl

@[simp] theorem State.writeIlen_cfg (s : State) (v : Word) :
    (s.writeIlen v).cfg = s.cfg := rfl
@[simp] theorem State.writeIlen_opc (s : State) (v : Word) :
    (s.writeIlen v).opc = s.opc := rfl
@[simp] theorem State.writeIlen_err (s : State) (v : Word) :
    (s.writeIlen v).err = s.err := rfl
@[simp] theorem State.writeIlen_errpos (s : State) (v : Word) :
    (s.writeIlen v).errpos = s.errpos := rfl
@[simp] theorem State.writeIlen_ilen (s : State) (v : Word) :
    (s.writeIlen v).ilen = v.extractLsb' 0 16 := rfl
@[simp] theorem State.writeIlen_olen (s : State) (v : Word) :
    (s.writeIlen v).olen = s.olen := rfl
@[simp] theorem State.writeIlen_ibuf (s : State) (v : Word) :
    (s.writeIlen v).ibuf = s.ibuf := rfl
@[simp] theorem State.writeIlen_obuf (s : State) (v : Word) :
    (s.writeIlen v).obuf = s.obuf := rfl
@[simp] theorem State.writeIlen_inner (s : State) (v : Word) :
    (s.writeIlen v).inner = s.inner := rfl
@[simp] theorem State.writeIlen_epoch (s : State) (v : Word) :
    (s.writeIlen v).epoch = s.epoch := rfl
@[simp] theorem State.writeIlen_commanded (s : State) (v : Word) :
    (s.writeIlen v).commanded = s.commanded := rfl
@[simp] theorem State.writeIlen_draws (s : State) (v : Word) :
    (s.writeIlen v).draws = s.draws := rfl
@[simp] theorem State.writeIlen_pending (s : State) (v : Word) :
    (s.writeIlen v).pending = s.pending := rfl
@[simp] theorem State.writeIlen_answer (s : State) (v : Word) :
    (s.writeIlen v).answer = s.answer := rfl

@[simp] theorem State.withCmdWrite_cfg (s : State) (w : Word) :
    (s.withCmdWrite w).cfg = s.cfg := rfl
@[simp] theorem State.withCmdWrite_opc (s : State) (w : Word) :
    (s.withCmdWrite w).opc = s.opc := rfl
@[simp] theorem State.withCmdWrite_err (s : State) (w : Word) :
    (s.withCmdWrite w).err = s.err := rfl
@[simp] theorem State.withCmdWrite_errpos (s : State) (w : Word) :
    (s.withCmdWrite w).errpos = s.errpos := rfl
@[simp] theorem State.withCmdWrite_ilen (s : State) (w : Word) :
    (s.withCmdWrite w).ilen = s.ilen := rfl
@[simp] theorem State.withCmdWrite_olen (s : State) (w : Word) :
    (s.withCmdWrite w).olen = s.olen := rfl
@[simp] theorem State.withCmdWrite_ibuf (s : State) (w : Word) :
    (s.withCmdWrite w).ibuf = s.ibuf := rfl
@[simp] theorem State.withCmdWrite_obuf (s : State) (w : Word) :
    (s.withCmdWrite w).obuf = s.obuf := rfl
@[simp] theorem State.withCmdWrite_inner (s : State) (w : Word) :
    (s.withCmdWrite w).inner = s.inner := rfl
@[simp] theorem State.withCmdWrite_epoch (s : State) (w : Word) :
    (s.withCmdWrite w).epoch = s.epoch := rfl
@[simp] theorem State.withCmdWrite_commanded (s : State) (w : Word) :
    (s.withCmdWrite w).commanded = s.commanded := rfl
@[simp] theorem State.withCmdWrite_draws (s : State) (w : Word) :
    (s.withCmdWrite w).draws = s.draws := rfl
@[simp] theorem State.withCmdWrite_pending (s : State) (w : Word) :
    (s.withCmdWrite w).pending = .regWrite 0 w :: s.pending := rfl
@[simp] theorem State.withCmdWrite_answer (s : State) (w : Word) :
    (s.withCmdWrite w).answer = s.answer := rfl

@[simp] theorem State.platformReset_cfg (s : State) :
    (s.platformReset).cfg = s.cfg := rfl
@[simp] theorem State.platformReset_opc (s : State) :
    (s.platformReset).opc = 0 := rfl
@[simp] theorem State.platformReset_err (s : State) :
    (s.platformReset).err = .ok := rfl
@[simp] theorem State.platformReset_errpos (s : State) :
    (s.platformReset).errpos = 0 := rfl
@[simp] theorem State.platformReset_ilen (s : State) :
    (s.platformReset).ilen = 0 := rfl
@[simp] theorem State.platformReset_olen (s : State) :
    (s.platformReset).olen = 0 := rfl
@[simp] theorem State.platformReset_ibuf (s : State) :
    (s.platformReset).ibuf = [] := rfl
@[simp] theorem State.platformReset_obuf (s : State) :
    (s.platformReset).obuf = [] := rfl
@[simp] theorem State.platformReset_inner (s : State) :
    (s.platformReset).inner = Internals.init s.cfg := rfl
@[simp] theorem State.platformReset_epoch (s : State) :
    (s.platformReset).epoch = s.epoch + 1 := rfl
@[simp] theorem State.platformReset_commanded (s : State) :
    (s.platformReset).commanded = false := rfl
@[simp] theorem State.platformReset_draws (s : State) :
    (s.platformReset).draws = s.draws := rfl
@[simp] theorem State.platformReset_pending (s : State) :
    (s.platformReset).pending = s.pending := rfl
@[simp] theorem State.platformReset_answer (s : State) :
    (s.platformReset).answer = none := rfl

end Sys2Proof.Machine
end

