-- ==== Sys2Proof/Laws/Ops.lean ====
section
/-! SUPPORT. For each shared operation, one lemma that says what it can do. -/

namespace Sys2Proof.Machine

/-! ### Buffers -/

@[simp] theorem Memory.read_nil (i : Nat) : Memory.read [] i = none := rfl

theorem Memory.read_cons (a : Nat) (b : Byte) (m : Memory) (i : Nat) :
    Memory.read ((a, b) :: m) i = if a = i then some b else Memory.read m i := rfl

/-- A read after a write gives the value written at its own cell, and what was there at every other cell. -/
theorem Memory.read_write (m : Memory) (i : Nat) (v : Byte) (j : Nat) :
    (Memory.write m i v).read j = if j = i then some v else Memory.read m j := by
  induction m with
  | nil => simp [Memory.write, Memory.read, eq_comm]
  | cons e m ih =>
    obtain ⟨a, b⟩ := e
    simp only [Memory.write]
    split
    · simp [Memory.read, eq_comm]
    · split
      · subst_vars; by_cases h : j = a <;> simp [Memory.read, h, eq_comm]
      · rw [Memory.read_cons, ih, Memory.read_cons]
        by_cases h : a = j
        · subst h; simp; omega
        · simp [h]

theorem Memory.wf_cons (e : Host.Cell) (m : Memory) :
    Memory.wf (e :: m) = true ↔ (∀ f ∈ m.head?, e.1 < f.1) ∧ Memory.wf m = true := by
  cases m <;> simp [Memory.wf, Memory.unlisted]

/-- Writing adds no index below both the new one and the first one of the list. -/
theorem Memory.write_head (m : Memory) (i : Nat) (v : Byte) (k : Nat) (hi : k < i)
    (hm : ∀ f ∈ m.head?, k < f.1) : ∀ f ∈ (Memory.write m i v).head?, k < f.1 := by
  cases m with
  | nil => simpa [Memory.write] using hi
  | cons e m =>
    obtain ⟨a, b⟩ := e
    simp only [Memory.write]
    split <;> [skip; split] <;> simp_all

/-- A write keeps the canonical form. -/
theorem Memory.wf_write (m : Memory) (i : Nat) (v : Byte) (h : m.wf = true) : (Memory.write m i v).wf = true := by
  induction m with
  | nil => simp [Memory.write, Memory.wf, Memory.unlisted]
  | cons e m ih =>
    obtain ⟨a, b⟩ := e
    rw [Memory.wf_cons] at h
    simp only [Memory.write]
    split
    · rw [Memory.wf_cons, Memory.wf_cons]
      exact ⟨by simpa using ‹i < a›, h⟩
    · split
      · subst_vars; rw [Memory.wf_cons]; exact h
      · rw [Memory.wf_cons]
        exact ⟨Memory.write_head m i v a (by omega) h.1, ih h.2⟩

/-- A write lists nothing but its own cell and what was listed. -/
theorem Memory.mem_write (m : Memory) (i : Nat) (v : Byte) (e : Host.Cell) (h : e ∈ Memory.write m i v) :
    e = (i, v) ∨ e ∈ m := by
  induction m with
  | nil => simpa [Memory.write] using h
  | cons f m ih =>
    simp only [Memory.write] at h
    split at h <;> [skip; split at h] <;> simp only [List.mem_cons] at h ⊢ <;> tauto

/-- A write to an existing cell keeps every listed cell existing. -/
theorem Memory.below_write (n : Nat) (m : Memory) (i : Nat) (v : Byte) (hi : i < n) (h : m.below n = true) :
    (Memory.write m i v).below n = true := by
  simp only [Memory.below, List.all_eq_true, decide_eq_true_eq] at h ⊢
  intro e he
  rcases Memory.mem_write m i v e he with rfl | he
  · exact hi
  · exact h e he

theorem Memory.read_ofSeqFrom (k : Nat) (l : List Byte) (i : Nat) :
    (Memory.ofSeqFrom k l).read i = if k ≤ i then l[i - k]? else none := by
  induction l generalizing k with
  | nil => simp [Memory.ofSeqFrom]
  | cons b l ih =>
    rw [Memory.ofSeqFrom, Memory.read_cons, ih]
    by_cases h : k = i
    · subst h; simp
    · by_cases h' : k ≤ i
      · have e : i - k = (i - (k + 1)) + 1 := by omega
        simp [h, h', show k + 1 ≤ i by omega, e]
      · simp [h, h', show ¬ k + 1 ≤ i by omega]

theorem Memory.keys_ofSeqFrom (k : Nat) (l : List Byte) :
    (Memory.ofSeqFrom k l).map Prod.fst = List.range' k l.length := by
  induction l generalizing k with
  | nil => rfl
  | cons b l ih => simp [Memory.ofSeqFrom, ih, List.range'_succ]

/-- A result stands in the cells `0, 1, ...` and nowhere else. -/
theorem Memory.keys_ofSeq (l : List Byte) : (Memory.ofSeq l).map Prod.fst = List.range l.length := by
  rw [Memory.ofSeq, Memory.keys_ofSeqFrom, List.range_eq_range']

theorem Memory.wf_ofSeqFrom (k : Nat) (l : List Byte) : (Memory.ofSeqFrom k l).wf = true := by
  induction l generalizing k with
  | nil => rfl
  | cons b l ih =>
    rw [Memory.ofSeqFrom, Memory.wf_cons]
    refine ⟨?_, ih _⟩
    cases l <;> simp [Memory.ofSeqFrom]

/-- A result list is canonical. -/
theorem Memory.wf_ofSeq (l : List Byte) : (Memory.ofSeq l).wf = true := Memory.wf_ofSeqFrom 0 l

/-- A listed cell reads as its byte, an unlisted one as the free value of the epoch. -/
theorem State.ibufCell_eq (s : State) (i : Nat) :
    s.ibufCell i = (s.ibuf.read i).getD (Config.ibufPowerUp s.epoch i) := rfl

/-- A host write changes its own cell of `IBUF` and no other. -/
theorem State.ibufCell_writeIbuf (s : State) (i : Nat) (v : Byte) (j : Nat) :
    (s.writeIbuf i v).ibufCell j = if j = i then v else s.ibufCell j := by
  simp only [State.ibufCell, State.writeIbuf_ibuf, State.writeIbuf_epoch, Memory.read_write]
  split <;> simp

/-- The input sequence depends on the cells only. -/
theorem State.input_congr (s t : State) (n : Nat) (h : ∀ i, i < n → s.ibufCell i = t.ibufCell i) :
    s.input n = t.input n := by
  simpa [State.input] using h

@[simp] theorem State.input_length (s : State) (n : Nat) : (s.input n).length = n := by simp [State.input]

/-- A read of `OBUF` gives a specified byte, or before any command the cell's fixed free value, and leaves the state; or,
after a command, it gives a fresh free value and advances the counter. -/
theorem State.readObuf_cases (s : State) (i : Nat) :
    (∃ b, s.obuf.read i = some b ∧ s.readObuf i = (b, s)) ∨
      (s.obuf.read i = none ∧ s.commanded = false ∧ s.readObuf i = (Config.obufPowerUp s.epoch i, s)) ∨
      (s.obuf.read i = none ∧ s.commanded = true ∧
        s.readObuf i = (Config.obufDraw s.draws, { s with draws := s.draws + 1 })) := by
  cases h : s.obuf.read i <;> cases hc : s.commanded <;> simp [State.readObuf, h, hc]

/-! ### Commands -/

/-- The alphabet check is R146's condition on the cells. -/
theorem bitsOnly_input (s : State) (n : Nat) :
    bitsOnly (s.input n) = true ↔ ∀ k, k < n → s.ibufCell k = 0 ∨ s.ibufCell k = 1 := by
  simp [bitsOnly, State.input, isBitCell]

/-- Everything the common sequence of R52 can do. -/
theorem State.runCommand_cases (s : State) (lengthOk : Params → Nat → Bool) (alphabetOk : List Byte → Bool)
    (compute : Params → Internals → List Byte → CodecResult × Internals) :
    (lengthOk s.cfg s.ilen.toNat = false ∧
        s.runCommand lengthOk alphabetOk compute = s.raise .invalidInput) ∨
      (lengthOk s.cfg s.ilen.toNat = true ∧ alphabetOk (s.input s.ilen.toNat) = false ∧
        s.runCommand lengthOk alphabetOk compute = s.raise .invalidInput) ∨
      (lengthOk s.cfg s.ilen.toNat = true ∧ alphabetOk (s.input s.ilen.toNat) = true ∧
        s.runCommand lengthOk alphabetOk compute =
          { s with inner := (compute s.cfg s.inner (s.input s.ilen.toNat)).2 }.finish
            (compute s.cfg s.inner (s.input s.ilen.toNat)).1) := by
  cases h1 : lengthOk s.cfg s.ilen.toNat <;> cases h2 : alphabetOk (s.input s.ilen.toNat) <;>
    simp [State.runCommand, h1, h2]

/-- The common sequence when both checks pass. -/
theorem State.runCommand_valid (s : State) (lengthOk : Params → Nat → Bool) (alphabetOk : List Byte → Bool)
    (compute : Params → Internals → List Byte → CodecResult × Internals)
    (h1 : lengthOk s.cfg s.ilen.toNat = true) (h2 : alphabetOk (s.input s.ilen.toNat) = true) :
    s.runCommand lengthOk alphabetOk compute =
      { s with inner := (compute s.cfg s.inner (s.input s.ilen.toNat)).2 }.finish
        (compute s.cfg s.inner (s.input s.ilen.toNat)).1 := by
  simp [State.runCommand, h1, h2]

@[simp] theorem State.finish_done (s : State) (res : List Byte) (pos : BitVec 4) :
    s.finish (.done res pos) = s.succeed res pos := rfl

@[simp] theorem State.finish_uncorrectable (s : State) : s.finish .uncorrectable = s.raise .uncorrectable := rfl

@[simp] theorem bitOfCell_cellOfBit (x : Bool) : bitOfCell (cellOfBit x) = x := by cases x <;> rfl

@[simp] theorem isBitCell_cellOfBit (x : Bool) : isBitCell (cellOfBit x) = true := by cases x <;> rfl

@[simp] theorem bitsOf_cellsOf (l : List Bool) : bitsOf (cellsOf l) = l := by
  simp [bitsOf, cellsOf, Function.comp_def]

@[simp] theorem bitsOnly_cellsOf (l : List Bool) : bitsOnly (cellsOf l) = true := by simp [bitsOnly, cellsOf]

/-! ### Host accesses and the step -/

/-- A write to `CMD` of a word that decodes runs its command. -/
theorem State.writeCmd_of_ok (s : State) (w : Word) (i : Instr) (h : decode w = .ok i) :
    s.writeCmd w = exec i (s.recordOpc (opcField w)) := by simp [State.writeCmd, h]

/-- A write to `CMD` of any other word raises `IllegalCommand`. -/
theorem State.writeCmd_of_error (s : State) (w : Word) (r : DecodeReject) (h : decode w = .error r) :
    s.writeCmd w = .next ((s.recordOpc (opcField w)).raise .illegalCmd) := by simp [State.writeCmd, h]

/-- With no access pending, the step leaves the state. -/
theorem step_of_idle (s : State) (h : s.pending = []) : step s = .next s := by simp [step, State.serveNext, h]

/-- A pending access inside the ranges is done. -/
theorem step_of_inRange (s : State) (a : HostAction) (rest : List HostAction) (h : s.pending = a :: rest)
    (hr : a.inRange s.cfg = true) : step s = (s.issue rest).access a := by simp [step, State.serveNext, h, hr]

/-- Every way in which a step can give a next state. -/
theorem step_next_cases (s t : State) (h : step s = .next t) :
    (s.pending = [] ∧ t = s) ∨
      ∃ a rest, s.pending = a :: rest ∧ a.inRange s.cfg = true ∧ (s.issue rest).access a = .next t := by
  unfold step State.serveNext at h
  split at h
  · exact .inl ⟨by assumption, by simpa using h.symm⟩
  · split at h
    · exact .inr ⟨_, _, by assumption, by assumption, h⟩
    · cases h

end Sys2Proof.Machine
end

