-- ==== Sys2Proof/Laws/Codecs.lean ====
section
/-! SUPPORT. What `exec` of each command is, that commands and accesses go on, and the sizes of the codecs' values. -/

namespace Sys2Proof.Machine

/-! ### The six commands as the common sequence -/

theorem exec_hamEnc (s : State) : exec .hamEnc s = .next (s.runCommand hamEncLength bitsOnly hamEncCompute) := rfl
theorem exec_hamDec (s : State) : exec .hamDec s = .next (s.runCommand hamDecLength bitsOnly hamDecCompute) := rfl
theorem exec_convEnc (s : State) : exec .convEnc s = .next (s.runCommand convEncLength bitsOnly convEncCompute) := rfl
theorem exec_vitDec (s : State) : exec .vitDec s = .next (s.runCommand vitDecLength bitsOnly vitDecCompute) := rfl
theorem exec_rsEnc (s : State) : exec .rsEnc s = .next (s.runCommand rsEncLength anySymbol rsEncCompute) := rfl
theorem exec_rsDec (s : State) : exec .rsDec s = .next (s.runCommand rsDecLength anySymbol rsDecCompute) := rfl

/-- Every command is the common sequence of R52 with its own checks and its own computation. -/
theorem exec_eq_runCommand (i : Instr) (s : State) : ∃ lengthOk alphabetOk compute,
    exec i s = .next (s.runCommand lengthOk alphabetOk compute) := by
  cases i <;> exact ⟨_, _, _, rfl⟩

/-- Every access inside the ranges has a next state. -/
theorem State.access_goes_on (s : State) (a : HostAction) : ∃ t, s.access a = .next t := by
  cases a with
  | regRead n => exact ⟨_, rfl⟩
  | memRead sp i => exact ⟨_, rfl⟩
  | memWrite sp i v => exact ⟨_, rfl⟩
  | reset => exact ⟨_, rfl⟩
  | regWrite n v =>
    simp only [State.access, State.writeReg]
    split
    · cases h : decode v with
      | error r => exact ⟨_, s.writeCmd_of_error v r h⟩
      | ok i =>
        obtain ⟨_, _, _, e⟩ := exec_eq_runCommand i (s.recordOpc (opcField v))
        exact ⟨_, (s.writeCmd_of_ok v i h).trans e⟩
    · exact ⟨_, rfl⟩
    · exact ⟨_, rfl⟩

/-! ### Four-way tables -/

@[simp] theorem Quad.get_tabulate {α : Type} (f : ConvState → α) (st : ConvState) : (Quad.tabulate f).get st = f st := by
  obtain ⟨a, b⟩ := st
  cases a <;> cases b <;> rfl

@[simp] theorem Quad.get_map {α β : Type} (f : α → β) (q : Quad α) (st : ConvState) : (q.map f).get st = f (q.get st) := by
  obtain ⟨a, b⟩ := st
  cases a <;> cases b <;> rfl

theorem Quad.get_set {α : Type} (q : Quad α) (st : ConvState) (v : α) (st' : ConvState) :
    (q.set st v).get st' = if st' = st then v else q.get st' := by
  obtain ⟨a, b⟩ := st
  obtain ⟨c, d⟩ := st'
  cases a <;> cases b <;> cases c <;> cases d <;> rfl

/-! ### Sizes -/

@[simp] theorem cellsOf_length (l : List Bool) : (cellsOf l).length = l.length := by simp [cellsOf]

@[simp] theorem bitsOf_length (l : List Byte) : (bitsOf l).length = l.length := by simp [bitsOf]

@[simp] theorem convEncodeFrom_length (st : ConvState) (m : List Bool) : (convEncodeFrom st m).length = 2 * m.length := by
  induction m generalizing st with
  | nil => rfl
  | cons b m ih => simp [convEncodeFrom, ih]; omega

theorem segments_length : ∀ r : List Bool, (segments r).length = r.length / 2
  | [] => rfl
  | [_] => by simp [segments]
  | _ :: _ :: r => by simp [segments, segments_length r]; omega

@[simp] theorem viterbiForward_length (m : Metrics) (rs : List (Bool × Bool)) :
    (viterbiForward m rs).2.length = rs.length := by
  induction rs generalizing m with
  | nil => rfl
  | cons r rs ih => simp [viterbiForward, ih]

@[simp] theorem traceback_length (rows : List (Quad (Option Bool))) (cur : ConvState) (tail : List Bool) :
    (traceback rows cur tail).length = rows.length + tail.length := by
  induction rows generalizing cur tail with
  | nil => simp [traceback]
  | cons row rows ih => simp [traceback, ih]; omega

theorem polyAddLow_length : ∀ xs ys : List Byte, (polyAddLow xs ys).length = max xs.length ys.length
  | [], ys => by simp [polyAddLow]
  | x :: xs, [] => by simp [polyAddLow]
  | x :: xs, y :: ys => by simp [polyAddLow, polyAddLow_length xs ys]

theorem polyMul_length : ∀ p q : List Byte, p ≠ [] → q ≠ [] → (polyMul p q).length = p.length + q.length - 1
  | [], _, h, _ => absurd rfl h
  | [a], q, _, _ => by simp [polyMul]
  | a :: b :: p, q, _, hq => by
    have ih := polyMul_length (b :: p) q (by simp) hq
    simp only [polyMul, polyAddLow_length, List.length_map, List.length_cons, ih]
    have := List.length_pos_iff.mpr hq
    omega

/-- The parity register keeps its size when the generator has that size (R107). -/
theorem parityStep_length (g par : List Byte) (m : Byte) (h : par.length = g.length) :
    (parityStep g par m).length = par.length := by
  cases par <;> simp_all [parityStep]
  omega

end Sys2Proof.Machine
end

