-- ==== Sys2Proof/Laws/Environment.lean ====
section
/-! SUPPORT. What the functions of the environment do (R125 to R131): strings go back and forth, noise keeps lengths. -/

namespace Sys2Proof.Machine

/-! ### Strings (R125) -/

@[simp] theorem parseBits_renderBits (l : List Bool) : parseBits (renderBits l) = some l := by
  induction l with
  | nil => rfl
  | cons x l ih => cases x <;> simp_all [renderBits, parseBits]

/-- A string that parses is the string of its bits. -/
theorem renderBits_of_parseBits (text : List Char) (l : List Bool) (h : parseBits text = some l) :
    renderBits l = text := by
  induction text generalizing l with
  | nil => simp_all [parseBits, renderBits]
  | cons c cs ih =>
    simp only [parseBits] at h
    split at h <;> [skip; split at h] <;> simp_all only [Option.map_eq_some_iff, reduceCtorEq] <;>
      obtain ⟨m, hm, rfl⟩ := h <;> simpa [renderBits] using ih m hm

/-- Cells made from a string give the string back. -/
theorem textOfCells_of_cellsOfText (text : List Char) (cells : List Byte) (h : cellsOfText text = some cells) :
    textOfCells cells = some text := by
  obtain ⟨l, hl, rfl⟩ := Option.map_eq_some_iff.mp h
  simp [textOfCells, renderBits_of_parseBits text l hl]

/-! ### Noise on bits (R126 to R130) -/

@[simp] theorem flipAt_length (data : List Bool) (i : Nat) : (flipAt data i).length = data.length := by simp [flipAt]

theorem foldl_flipAt_length (f : Nat → Nat) (l : List Nat) (data : List Bool) :
    (l.foldl (fun d j => flipAt d (f j)) data).length = data.length := by
  induction l generalizing data with
  | nil => rfl
  | cons i l ih => simp [ih]

theorem xorBits_length (a b : List Bool) (h : b.length = a.length) : (xorBits a b).length = a.length := by
  simp [xorBits, h]

/-- Everything `gaussianFlip` can answer. -/
theorem gaussianFlip_eq_some (data : List Bool) (p : Rat) (hits out : List Bool) :
    gaussianFlip data p hits = some out ↔
      (0 ≤ p ∧ p ≤ 1 ∧ hits.length = data.length ∧ hits.all (possibleHit p) = true) ∧ xorBits data hits = out := by
  simp [gaussianFlip]

/-- R129: probability 0 never flips any bit. -/
theorem gaussianFlip_zero (data hits out : List Bool) (h : gaussianFlip data 0 hits = some out) : out = data := by
  obtain ⟨⟨-, -, hl, hh⟩, rfl⟩ := (gaussianFlip_eq_some _ _ _ _).mp h
  clear h
  induction data generalizing hits with
  | nil => simp [xorBits]
  | cons x xs ih => cases hits <;> simp_all [xorBits, possibleHit]

/-- R129: probability 1 flips every bit. -/
theorem gaussianFlip_one (data hits out : List Bool) (h : gaussianFlip data 1 hits = some out) :
    out = data.map (!·) := by
  obtain ⟨⟨-, -, hl, hh⟩, rfl⟩ := (gaussianFlip_eq_some _ _ _ _).mp h
  clear h
  induction data generalizing hits with
  | nil => simp [xorBits]
  | cons x xs ih => cases hits <;> simp_all [xorBits, possibleHit]

/-- U19: a probability outside [0, 1] is refused. -/
theorem gaussianFlip_refuses (data hits : List Bool) (p : Rat) (h : ¬ (0 ≤ p ∧ p ≤ 1)) :
    gaussianFlip data p hits = none := by
  simp only [gaussianFlip]
  split <;> simp_all

/-- R130: the noisy codeword has the codeword's length. -/
theorem injectNoise_length (data : List Bool) (model : NoiseModel) (draw : NoiseDraw) (out : List Bool)
    (h : injectNoise data model draw = some out) : out.length = data.length := by
  cases model <;> cases draw <;> simp only [injectNoise, reduceCtorEq] at h
  · simp only [flipRandomK] at h
    split at h <;> simp at h
    subst h; exact foldl_flipAt_length id _ _
  · simp only [burstFlip, flipOne] at h
    split at h <;> split at h <;> simp at h <;> subst h
    · exact foldl_flipAt_length _ _ _
    · simp
  · obtain ⟨⟨-, -, hl, -⟩, rfl⟩ := (gaussianFlip_eq_some _ _ _ _).mp h
    exact xorBits_length _ _ hl

/-! ### Noise on bytes (R131) -/

@[simp] theorem bytesOfBits_bitsOfBytes (data : List Byte) : bytesOfBits (bitsOfBytes data) = data := by
  induction data with
  | nil => rfl
  | cons b data ih =>
    simp only [bitsOfBytes, bitsOfByte, List.flatMap_cons, List.cons_append, List.nil_append, bytesOfBits] at ih ⊢
    rw [ih]
    congr 1
    revert b; decide +kernel

@[simp] theorem bitsOfBytes_length (data : List Byte) : (bitsOfBytes data).length = 8 * data.length := by
  induction data with
  | nil => rfl
  | cons b data ih => simp_all [bitsOfBytes, bitsOfByte]; omega

theorem bytesOfBits_length (n : Nat) : ∀ l : List Bool, l.length = 8 * n → (bytesOfBits l).length = n := by
  induction n with
  | zero => intro l h; simp [List.length_eq_zero_iff.mp h, bytesOfBits]
  | succ n ih =>
    intro l h
    match l, h with
    | _ :: _ :: _ :: _ :: _ :: _ :: _ :: _ :: rest, h => simp [bytesOfBits, ih rest (by simp at h; omega)]

/-- Marked symbols with magnitudes other than 0 differ, and no other symbol does (R131). -/
theorem symbolDistance_hitSymbols (data : List Byte) (hits : List Bool) (magnitudes : List Byte)
    (hh : hits.length = data.length) (hm : magnitudes.length = data.length) (h0 : ∀ m ∈ magnitudes, m ≠ 0) :
    symbolDistance data (hitSymbols data hits magnitudes) = hits.count true := by
  induction data generalizing hits magnitudes with
  | nil =>
    obtain rfl : hits = [] := by simpa using hh
    rfl
  | cons b data ih =>
    obtain ⟨h, hits, rfl⟩ := List.exists_of_length_succ hits hh
    obtain ⟨m, magnitudes, rfl⟩ := List.exists_of_length_succ magnitudes hm
    have := ih hits magnitudes (by simpa using hh) (by simpa using hm) (by simp_all)
    simp only [hitSymbols, gfAdd] at this
    have hm0 : m ≠ 0 := h0 m (by simp)
    have hne : b ≠ b ^^^ m := fun e => hm0 (by
      have := congrArg (b ^^^ ·) e
      simpa [← BitVec.xor_assoc] using this.symm)
    cases h
    · simpa [hitSymbols, symbolDistance, gfAdd] using this
    · simp [hitSymbols, symbolDistance, gfAdd, hne, this]
      omega

/-- R131: noise on a byte codeword keeps its length, with either granularity. -/
theorem injectNoiseBytes_length (data : List Byte) (model : NoiseModel) (draw : NoiseDraw) (magnitudes : List Byte)
    (g : NoiseGranularity) (out : List Byte) (h : injectNoiseBytes data model draw magnitudes g = some out) :
    out.length = data.length := by
  cases g <;> simp only [injectNoiseBytes] at h <;> split at h <;> simp only [Option.map_eq_some_iff, reduceCtorEq] at h <;>
    obtain ⟨l, hl, rfl⟩ := h <;> have hlen := injectNoise_length _ _ _ _ hl
  · exact bytesOfBits_length _ _ (by simpa using hlen)
  · simp_all [hitSymbols]

end Sys2Proof.Machine
end

