-- ==== Sys2Proof/Laws/PerInstr.lean ====
section
/-! SUPPORT. A law of every command as syntax, one lemma for each constructor. -/

namespace Sys2Proof.Laws.EncodingShape

/-- A command is well formed, its word has `RSV = 0` (R45) and an opcode in 0x01..0x06 (R46). -/
def Statement (i : Instr) : Prop :=
  i.wellFormed = true ∧ rsvField (encode i) = 0 ∧ 1 ≤ (opcField (encode i)).toNat ∧ (opcField (encode i)).toNat ≤ 6

theorem hamEnc : Statement .hamEnc := by unfold Statement; decide

theorem hamDec : Statement .hamDec := by unfold Statement; decide

theorem convEnc : Statement .convEnc := by unfold Statement; decide

theorem vitDec : Statement .vitDec := by unfold Statement; decide

theorem rsEnc : Statement .rsEnc := by unfold Statement; decide

theorem rsDec : Statement .rsDec := by unfold Statement; decide

end Sys2Proof.Laws.EncodingShape
end

