-- ==== Sys2Proof/Tests/Slice0.lean ====
section
/-! SUPPORT. Tests with expected results from spec/95_test_vectors.md, the smoke tests of WellFormed, and a witness for
the hypotheses of each statement. -/

namespace Sys2Proof.Machine

-- One test after another: tests that wait for the kernel side by side hold a thread, and its stack, each.
set_option Elab.async false

/-- The reset state of an instance, with a sequence loaded into `IBUF` and its length into `ILEN`. -/
def loadedOf (p : Params) (cells : List Byte) : State :=
  { State.resetOf p with ibuf := Memory.ofSeq cells, ilen := BitVec.ofNat 16 cells.length }

/-- The same with the default parameters. -/
def loaded (cells : List Byte) : State := loadedOf Params.default cells

/-- A loaded sequence is the input sequence. -/
theorem loadedOf_input (p : Params) (cells : List Byte) : (loadedOf p cells).input cells.length = cells := by
  apply List.ext_getElem <;> simp +contextual [State.input, State.ibufCell, loadedOf, Memory.ofSeq, Memory.read_ofSeqFrom]

/-- The bits of a string of digits, as cells. -/
def digits (l : List Nat) : List Byte := l.map (BitVec.ofNat 8)

/-- `STATUS`, `OLEN` and the specified cells of `OBUF` after a step. -/
def seen : Host.Outcome State Fault Refusal → Option (Word × Nat × List Byte)
  | .next t => some (t.statusWord, t.olen.toNat, t.obuf.map Prod.snd)
  | _ => none

/-- Whether an outcome is a next state. -/
def goesOn : Host.Outcome State Fault Refusal → Bool
  | .next _ => true
  | _ => false

theorem goesOn_iff (o : Host.Outcome State Fault Refusal) : goesOn o = true ↔ ∃ t, o = .next t := by
  cases o <;> simp [goesOn]

/-! ### Smoke tests of WellFormed: each check refuses an ill-formed term -/

theorem smoke_nsym_zero : Params.legal { nsym := 0, bufsz := 512 } = false := by decide
theorem smoke_nsym_255 : Params.legal { nsym := 255, bufsz := 512 } = false := by decide
theorem smoke_bufsz_odd : Params.legal { nsym := 10, bufsz := 257 } = false := by decide
theorem smoke_bufsz_small : Params.legal { nsym := 10, bufsz := 254 } = false := by decide
theorem smoke_bufsz_large : Params.legal { nsym := 10, bufsz := 65536 } = false := by decide
theorem smoke_reg_read_5 : HostAction.inRange Params.default (.regRead 5) = false := by decide
theorem smoke_reg_write_5 : HostAction.inRange Params.default (.regWrite 5 0) = false := by decide
theorem smoke_cell_read_512 : HostAction.inRange Params.default (.memRead .ibuf 512) = false := by decide
theorem smoke_cell_write_512 : HostAction.inRange Params.default (.memWrite .obuf 512 0) = false := by decide

/-! ### Decoding: words written out from R46, and illegal words of V22 -/

theorem test_decode_ham_enc : decode (0b00000000000000000000000000000001 : Word) = .ok .hamEnc := rfl
theorem test_decode_ham_dec : decode (0b00000000000000000000000000000010 : Word) = .ok .hamDec := rfl
theorem test_decode_conv_enc : decode (0b00000000000000000000000000000011 : Word) = .ok .convEnc := rfl
theorem test_decode_vit_dec : decode (0b00000000000000000000000000000100 : Word) = .ok .vitDec := rfl
theorem test_decode_rs_enc : decode (0b00000000000000000000000000000101 : Word) = .ok .rsEnc := rfl
theorem test_decode_rs_dec : decode (0b00000000000000000000000000000110 : Word) = .ok .rsDec := rfl
theorem test_decode_zero : decode 0 = .error (.unknownOpcode 0) := rfl
theorem test_decode_7 : decode 7 = .error (.unknownOpcode 7) := rfl
theorem test_decode_reserved_low : decode 0x101 = .error (.reservedNotZero 1) := rfl
theorem test_decode_reserved_high : decode 0x80000004 = .error (.reservedNotZero 0x800000) := rfl
theorem test_decodeTableWord : decodeTableWord 32 6 = some .rsDec ∧ decodeTableWord 32 0x106 = none := by decide

/-! ### One step of each command -/

/-- V6: a cell that is not binary. V2: data 1011. -/
theorem test_ham_enc_1011 : seen (exec .hamEnc (loaded (digits [1, 0, 1, 1]))) =
    some (0, 7, digits [0, 1, 1, 0, 0, 1, 1]) := by decide +kernel
theorem test_ham_enc_not_binary : seen (exec .hamEnc (loaded (digits [1, 0, 2, 1]))) = some (1, 0, []) := by
  decide +kernel

/-- V1 row 4 and V5 row 1. -/
theorem test_ham_dec_source_string : seen (exec .hamDec (loaded (digits [0, 1, 1, 1, 0, 1, 1]))) =
    some (0x40, 4, digits [1, 0, 1, 1]) := by decide +kernel
theorem test_ham_dec_two_errors : seen (exec .hamDec (loaded (digits [1, 0, 1, 0, 0, 1, 1]))) =
    some (0x30, 4, digits [0, 0, 1, 1]) := by decide +kernel

/-- V7: message 1101; V21: length 257. -/
theorem test_conv_enc_1101 : seen (exec .convEnc (loaded (digits [1, 1, 0, 1]))) =
    some (0, 8, digits [1, 1, 0, 1, 0, 1, 0, 0]) := by decide +kernel
theorem test_conv_enc_too_long : seen (exec .convEnc (loaded (List.replicate 257 0))) = some (1, 0, []) := by
  decide +kernel

/-- V9 row 4 (two errors corrected) and V13 (the order of the final scan). -/
theorem test_vit_dec_two_errors :
    seen (exec .vitDec (loaded (digits [1, 0, 1, 0, 0, 0, 0, 1, 1, 1, 1, 1, 1, 1, 1, 0]))) =
      some (0, 8, digits [1, 0, 1, 1, 0, 0, 1, 0]) := by decide +kernel
theorem test_vit_dec_final_tie :
    seen (exec .vitDec (loaded (digits [1, 1, 1, 0, 1, 0, 1, 1, 0, 1, 0, 0, 0, 1, 1, 1, 1, 1, 1, 1]))) =
      some (0, 10, digits [1, 0, 0, 1, 1, 1, 0, 0, 1, 0]) := by decide +kernel

/-- V16: messages 01 and "hello". -/
theorem test_rs_enc_01 : seen (exec .rsEnc (loaded [0x01])) =
    some (0, 11, [0x01, 0xD8, 0xC2, 0x9F, 0x6F, 0xC7, 0x5E, 0x5F, 0x71, 0x9D, 0xC1]) := by decide +kernel
theorem test_rs_enc_hello : seen (exec .rsEnc (loaded [0x68, 0x65, 0x6C, 0x6C, 0x6F])) =
    some (0, 15, [0x68, 0x65, 0x6C, 0x6C, 0x6F, 0xA9, 0x75, 0x10, 0x35, 0x86, 0x24, 0x74, 0x52, 0x4D, 0x52]) := by
  decide +kernel

/-- V17: five errors. V20: two errors with `NSYM = 2`. -/
theorem test_rs_dec_five_errors :
    seen (exec .rsDec
      (loaded [0x97, 0x65, 0x6C, 0x6D, 0x6F, 0xA9, 0x75, 0x90, 0x35, 0x86, 0x71, 0x74, 0x52, 0x4D, 0x00])) =
      some (0, 5, [0x68, 0x65, 0x6C, 0x6C, 0x6F]) := by decide +kernel
theorem test_rs_dec_uncorrectable :
    seen (exec .rsDec (loadedOf { nsym := 2, bufsz := 512 } [0x01, 0x02, 0xDC, 0x04, 0x5D])) = some (2, 0, []) := by
  decide +kernel

/-- V22: `HAM_ENC`'s opcode with a reserved bit set, as the first access after reset. -/
theorem test_step_illegal_word :
    seen (step (State.reset.withFetchWord 32 0x101)) = some (3, 0, []) := by decide +kernel

/-- V14. -/
theorem test_field : gfMul 0x53 0xCA = 0x8F ∧ gfMul 0xFF 0xFF = 0xE2 ∧ gfMul 0x57 0x83 = 0x31 ∧
    gfInv 0x53 (by decide) = 0x8C ∧ gfInv 0xFF (by decide) = 0xFD ∧ gfPow 2 8 = 0x1D ∧ gfLog 3 = some 25 := by
  decide +kernel

/-! ### The host script and the environment -/

/-- R51: `COPYBACK` of a result of one cell, and `LOADTEXT`. -/
theorem test_copyBack : ScriptLine.expand { State.reset with obuf := Memory.ofSeq [5], olen := 1, commanded := true } .copyBack =
    [.regRead 3, .memRead .obuf 0, .memWrite .ibuf 0 5, .regWrite 2 1] := by decide +kernel
theorem test_loadText : ScriptLine.expand State.reset (.loadText "he") =
    [.memWrite .ibuf 0 0x68, .memWrite .ibuf 1 0x65, .regWrite 2 2] := by decide +kernel

/-- R127, R128, R129, R133: distinct positions only, the fall-back to one flip, every bit flipped, 50 percent. -/
theorem test_noise : flipRandomK [true, true, false] 2 [2, 0] = some [false, true, true] ∧
    flipRandomK [true] 2 [0, 0] = none ∧ burstFlip [true, false] 3 1 = some [true, true] ∧
    gaussianFlip [true, false] 1 [true, true] = some [false, true] ∧ gaussianFlip [true] 0 [true] = none ∧
    gaussianFlip [true] 2 [true] = none := by decide +kernel

/-- R125: a string to cells and back (P1), and a character that is no digit. -/
theorem test_text : cellsOfText ['1', '0', '1', '1'] = some (digits [1, 0, 1, 1]) ∧
    textOfCells (digits [0, 1, 1, 0, 0, 1, 1]) = some ['0', '1', '1', '0', '0', '1', '1'] ∧
    cellsOfText ['1', '2'] = none ∧ textOfCells [2] = none := by decide

/-- R131: a byte changed by eight bit flips and by one byte flip (P3: 68 becomes 97), and the symbol of P3 that
changes by 01. -/
theorem test_noise_bytes : injectNoiseBytes [0x68, 0x6C] (.burst 8) (.offset 0) [] .bit = some [0x97, 0x6C] ∧
    injectNoiseBytes [0x68, 0x6C] (.randomFlip 1) (.positions [0]) [0xFF, 1] .byte = some [0x97, 0x6C] ∧
    injectNoiseBytes [0x68, 0x6C] (.randomFlip 1) (.positions [15]) [] .bit = some [0x68, 0x6D] ∧
    injectNoiseBytes [0x68] (.burst 1) (.offset 0) [0] .byte = none := by decide +kernel
theorem test_successRate : successRate (recordResult (recordResult [] "RS" true) "RS" false) "RS" = 50 := by
  decide +kernel

/-! ### Witnesses: the hypotheses of each statement hold together somewhere -/

/-- The state of a host about to write the word `w` to `CMD`. -/
def aboutTo (s : State) (w : Word) : State := { s with pending := [.regWrite 0 w] }

theorem witness_legal_parameters : Params.legal Params.default = true ∧ Params.legal { nsym := 1, bufsz := 256 } = true ∧
    Params.legal { nsym := 254, bufsz := 65534 } = true := by decide

/-- `CommandAfterResetIsInvalidInput`, `ResetMeetsTheInvariant`, `CfgRegisterNeverChanges` (legality). -/
theorem witness_cfg_step : (loaded []).cfg.legal = true ∧ goesOn (step (loaded [])) = true := by decide +kernel

theorem witness_StepRunsTheDecodedCommand : (aboutTo State.reset 3).pending = .regWrite 0 3 :: [] ∧
    decode 3 = .ok .convEnc ∧ Instr.wellFormed .convEnc = true := ⟨rfl, rfl, rfl⟩

theorem witness_PlatformReset : ({ loaded [1] with pending := [.reset] } : State).pending = .reset :: [] := rfl

/-- One word for each way of being illegal, at the boundaries (V22). -/
theorem witness_IllegalWord : [0x00, 0x07, 0xFF, 0x101, 0x80000004].all (fun w : Word =>
    [Instr.hamEnc, .hamDec, .convEnc, .vitDec, .rsEnc, .rsDec].all fun i => decide (w ≠ encode i)) = true := by decide

theorem witness_CmdReadsBackTheLowByte : goesOn (step (aboutTo State.reset 0x107)) = true ∧
    touchesResult (.regWrite 2 5) = false ∧ goesOn (State.reset.access (.regWrite 2 5)) = true := by decide +kernel

/-- `StatusRegisterFollowsItsRule`: a `HAM_DEC` that succeeds with a position, and one that fails; an `RS_DEC` whose
computation fails is `test_rs_dec_uncorrectable`. -/
theorem witness_StatusRegister : seen (exec .hamDec (loaded (digits [0, 0, 0, 0, 0, 0, 1]))) = some (0x70, 4, digits [0, 0, 0, 0]) ∧
    seen (exec .hamDec (loaded (digits [0, 0, 0, 0]))) = some (1, 0, []) ∧
    decode 0x107 = .error (.reservedNotZero 1) ∧ seen (State.reset.access (.regWrite 0 0x107)) = some (3, 0, []) :=
  ⟨by decide +kernel, by decide +kernel, rfl, by decide +kernel⟩

/-- Lengths just outside every range (V21). -/
theorem witness_lengths_rejected : [(3, Instr.hamEnc), (5, .hamEnc), (6, .hamDec), (8, .hamDec), (0, .convEnc),
    (257, .convEnc), (0, .vitDec), (3, .vitDec), (514, .vitDec), (0, .rsEnc), (246, .rsEnc), (10, .rsDec),
    (256, .rsDec)].all (fun e => !lengthAccepted Params.default e.1 e.2) = true := by decide

/-- `CommandsChangeOnlyTheirResults`, `OlenRegisterFollowsItsRule`, `InvalidInputCausesAreComplete`,
`EveryCommandCompletesOnValidInput`: zero cells at the smallest lengths of the six commands. -/
theorem witness_smallest_inputs : [(4, Instr.hamEnc), (7, .hamDec), (1, .convEnc), (2, .vitDec), (1, .rsEnc),
    (11, .rsDec)].all (fun e => lengthAccepted Params.default (loaded (List.replicate e.1 0)).ilen.toNat e.2
      && (loaded (List.replicate e.1 0)).cfg.legal && bitsOnly ((loaded (List.replicate e.1 0)).input e.1)
      && isCodeword 10 ((loaded (List.replicate e.1 0)).input e.1)
      && goesOn (exec e.2 (loaded (List.replicate e.1 0)))) = true := by decide +kernel

/-- The same at the largest lengths: the lengths are accepted, and zero cells are bits and codewords. -/
theorem witness_largest_inputs : [(256, Instr.convEnc), (512, .vitDec), (245, .rsEnc), (255, .rsDec)].all
    (fun e => lengthAccepted Params.default (loaded (List.replicate e.1 0)).ilen.toNat e.2) = true := by decide +kernel
theorem witness_largest_cells (n : Nat) : (loaded (List.replicate n 0)).input (List.replicate n (0 : Byte)).length =
    List.replicate n 0 ∧ bitsOnly (List.replicate n 0) = true := by
  refine ⟨loadedOf_input _ _, ?_⟩
  cases n <;> simp [bitsOnly, isBitCell]
theorem witness_largest_codeword : isCodeword 10 (List.replicate 255 0) = true := isCodeword_replicate_zero 10 255

theorem witness_specified_cell : ({ State.reset with obuf := Memory.ofSeq [5], commanded := true } : State).obuf.read 0 = some 5 := rfl

/-- `OutOfRangeAccessIsRefused`: the first register and the first cell outside. -/
theorem witness_OutOfRange : ({ loaded [] with pending := [.regRead 5] } : State).pending = .regRead 5 :: [] ∧ 4 < 5 ∧
    ({ loaded [] with pending := [.memWrite .obuf 512 0] } : State).pending = .memWrite .obuf 512 0 :: [] ∧
    (loaded []).cfg.bufsz ≤ 512 := by decide

/-- `UnspecifiedObufCellReadsFree`: just beyond a result of one cell; after reset, and the read of cell 0 repeated. -/
theorem witness_UnspecifiedObuf :
    (let s : State := { State.reset with obuf := Memory.ofSeq [5], olen := 1, commanded := true }
     s.BuffersOk ∧ s.olen.toNat ≤ 1 ∧ s.commanded = true) ∧
    (State.reset.BuffersOk ∧ State.reset.olen.toNat ≤ 0 ∧ State.reset.commanded = false) := by decide +kernel
theorem witness_obuf_read_twice : State.reset.access (.memRead .obuf 0) =
    .next { State.reset with answer := some (.cell (Config.obufPowerUp 0 0)) } := rfl

theorem witness_Load : (loaded []).cfg.legal = true ∧ (List.replicate 512 (7 : Byte)).length ≤ (loaded []).cfg.bufsz := by
  decide +kernel

/-- `OnlyRsDecIsUncorrectable`, `RsDecIsBoundedDistanceDecoding` (second clause): see `test_rs_dec_uncorrectable`. -/
theorem witness_rs_dec_length : let s := loadedOf { nsym := 2, bufsz := 512 } [0x01, 0x02, 0xDC, 0x04, 0x5D]
    s.cfg.legal = true ∧ s.cfg.nsym + 1 ≤ s.ilen.toNat ∧ s.ilen.toNat ≤ 255 := by decide +kernel

/-- The second clause of `RsDecIsBoundedDistanceDecoding`: with `NSYM = 1`, so `T = 0`, nothing is close to a word that
is no codeword (V20). -/
theorem witness_no_close_codeword : ¬ ∃ c, CloseCodeword { nsym := 1, bufsz := 512 } [1, 2, 3, 1] c := by
  rintro ⟨c, hl, hc, hd⟩
  obtain ⟨a, b, d, e, rfl⟩ := List.length_eq_four.mp hl
  simp only [symbolDistance, Params.t] at hd
  obtain ⟨rfl, rfl, rfl, rfl⟩ : a = 1#8 ∧ b = 2#8 ∧ d = 3#8 ∧ e = 1#8 := by simpa using hd
  exact absurd hc (by decide +kernel)

/-- `ErrorEntryChangesExactlyThis`: an access that writes `CMD`, with the three errors (V6, V20, V22). -/
theorem witness_ErrorEntry : seen (step (aboutTo State.reset 1)) = some (1, 0, []) ∧
    seen (step (aboutTo State.reset 0)) = some (3, 0, []) ∧
    seen (step (aboutTo (loadedOf { nsym := 2, bufsz := 512 } [0x01, 0x02, 0x03]) 6)) = some (2, 0, []) := by
  decide +kernel

/-- `ResultDependsOnTheInputAlone`: two different states that agree on the input. -/
theorem witness_ResultDependsOnTheInputAlone :
    let s := loaded (digits [1, 0, 1, 1])
    let s' : State := { loaded (digits [1, 0, 1, 1, 0]) with ilen := 4, err := .illegalCmd, olen := 9 }
    s.cfg = s'.cfg ∧ s.ilen = s'.ilen ∧ (∀ k, k < s.ilen.toNat → s.ibufCell k = s'.ibufCell k) ∧
      goesOn (exec .hamEnc s) = true ∧ goesOn (exec .hamEnc s') = true := by decide +kernel

theorem witness_HamEnc : (loaded (digits [1, 0, 1, 1])).ilen = 4 ∧
    (loaded (digits [1, 0, 1, 1])).input 4 = cellsOf [true, false, true, true] := by decide +kernel

/-- The three Hamming decodes: no error, the first and the last position flipped, two positions flipped. -/
theorem witness_HamDec : let d := [true, false, true, true]
    [hamEncode d, flipAt (hamEncode d) 0, flipAt (hamEncode d) 6, flipAt (flipAt (hamEncode d) 0) 6,
      flipAt (flipAt (hamEncode d) 5) 6].all (fun e => decide (e.length = 7) && decide ((loaded (cellsOf e)).ilen = 7)
        && decide ((loaded (cellsOf e)).input 7 = cellsOf e)) = true := by decide +kernel

/-- `ConvEncWritesBothGenerators` at lengths 1 and `BUFSZ/2`; `VitDecWritesTheReferencePath` and
`ViterbiFindsANearestMessage` at lengths 2 and `BUFSZ`. -/
theorem witness_conv_lengths : [1, 256].all (fun n => decide (1 ≤ n) && decide (n ≤ (loaded []).cfg.bufsz / 2)
      && decide ((loaded (cellsOf (List.replicate n true))).ilen.toNat = n)) = true ∧
    [2, 512].all (fun n => decide (n % 2 = 0) && decide (2 ≤ n) && decide (n ≤ (loaded []).cfg.bufsz)
      && decide ((loaded (cellsOf (List.replicate n true))).ilen.toNat = n)) = true := by decide +kernel
theorem witness_conv_cells (n : Nat) :
    (loaded (cellsOf (List.replicate n true))).input (cellsOf (List.replicate n true)).length =
      cellsOf (List.replicate n true) := loadedOf_input _ _

/-- V12: both flips of the last segment, last message bit 1 and 0. -/
theorem witness_LastSegment : viterbi (flipAt (convEncode ([true, false] ++ [true])) (2 * 2 + 1)) = [true, false, false] ∧
    viterbi (flipAt (convEncode ([true, false] ++ [false])) (2 * 2 + 0)) = [true, false, false] := by decide +kernel

/-- `FieldInverseIsTheInverse`, `FieldPowersGoThroughTheLogarithm`: a non-zero element, and an exponent of at least 1. -/
theorem witness_field : (0x53 : Byte) ≠ 0 ∧ gfMul 0x53 0x8C = 1 ∧ 1 ≤ 1 := by decide +kernel

/-- `RsEncWritesASystematicCodeword` at the smallest and the largest length. -/
theorem witness_RsEnc : [1, 245].all (fun k => (loaded (List.replicate k 7)).cfg.legal
    && decide (1 ≤ (loaded (List.replicate k 7)).ilen.toNat)
    && decide ((loaded (List.replicate k 7)).ilen.toNat ≤ 255 - 10)) = true := by decide +kernel

/-- `CodewordsAreFarApart`, `RsDecCorrectsOneSymbolError`: two codewords with `NSYM = 2` at distance 3, and a word within
`T = 1` of the first (V20). -/
theorem witness_Codewords : let p : Params := { nsym := 2, bufsz := 512 }
    let c : List Byte := [0x01, 0x03, 0x02]
    isCodeword 2 c = true ∧ isCodeword 2 [0, 0, 0] = true ∧ c ≠ [0, 0, 0] ∧ symbolDistance c [0, 0, 0] = 3 ∧
      CloseCodeword p [0x01, 0x03, 0xFF] c ∧ 2 < c.length ∧ p.legal = true ∧ 2 ≤ p.nsym ∧ p.nsym + 1 ≤ c.length ∧
      (loadedOf p (c.set 2 0xFF)).ilen.toNat = c.length ∧ (loadedOf p (c.set 2 0xFF)).input c.length = c.set 2 0xFF := by
  decide +kernel

/-- `RsDecAnswersWithANearCodeword`, `RsRoundTripReturnsTheMessage`, and `RsDecNeverReturnsADistantMessage` on the
mis-correction of V20. -/
theorem witness_RsDec : let p : Params := { nsym := 2, bufsz := 512 }
    let m : List Byte := [0x01, 0x02, 0x03]
    let s := loadedOf p (rsEncode 2 m)
    let s' := loadedOf p [0x56, 0x02, 0x03, 0xEB, 0x04]
    s.cfg.legal = true ∧ 1 ≤ m.length ∧ m.length ≤ 255 - s.cfg.nsym ∧ s.ilen.toNat = m.length + s.cfg.nsym ∧
      s.input s.ilen.toNat = rsEncode s.cfg.nsym m ∧ seen (exec .rsDec s) = some (0, 3, m) ∧
      s'.cfg.t < symbolDistance (rsEncode s'.cfg.nsym m) (s'.input s'.ilen.toNat) ∧
      s'.ilen.toNat = m.length + s'.cfg.nsym ∧ seen (exec .rsDec s') = some (0, 3, [0x56, 0x02, 0xBB]) := by
  decide +kernel

/-- `StepKeepsTheInvariant`: a state with a loaded buffer and a command to come. -/
theorem witness_Inv : (aboutTo (loaded (digits [0, 1, 1, 1, 0, 1, 1])) 2).Inv ∧
    goesOn (step (aboutTo (loaded (digits [0, 1, 1, 1, 0, 1, 1])) 2)) = true := by decide +kernel

/-- The three statements about runs: accesses and commands between a write and a read, and between a result and a
read. -/
theorem witness_runs :
    let mid : List HostAction := [.memWrite .ibuf 1 9, .regWrite 2 4, .regWrite 0 1, .memRead .obuf 0]
    let s : State := { State.reset with pending := .memWrite .ibuf 0 7 :: (mid ++ [.memRead .ibuf 0]) }
    let quiet : List HostAction := [.memWrite .ibuf 1 9, .regWrite 2 4, .regRead 1]
    let s' : State := { State.reset with
      obuf := Memory.ofSeq [5], olen := 1, commanded := true, pending := quiet ++ [.memRead .obuf 0] }
    s.InRange ∧ mid.all (fun a => !touchesIbuf 0 a) = true ∧ s'.InRange ∧ s'.obuf.read 0 = some 5 ∧
      quiet.all (fun a => !touchesResult a) = true := by decide +kernel

end Sys2Proof.Machine
end

namespace Sys2Proof.Machine

/-! PROOFS. The state and its registers: what every command computes and leaves, what every access leaves, and the
statements about `STATUS`, `OLEN`, `CFG` and the dependence of results. -/

/-! ### The commands as one function: checks, result, frame (R46, R52) -/

/-- The length check that `exec` passes to the common sequence for each command (R66, R82, R115). -/
def commandLength : Instr → Params → Nat → Bool
  | .hamEnc => hamEncLength
  | .hamDec => hamDecLength
  | .convEnc => convEncLength
  | .vitDec => vitDecLength
  | .rsEnc => rsEncLength
  | .rsDec => rsDecLength

/-- The alphabet check that `exec` passes to the common sequence for each command (R66, R82, R115). -/
def commandAlphabet (i : Instr) : List Byte → Bool :=
  if readsBits i then bitsOnly else anySymbol

/-- The computation that `exec` passes to the common sequence for each command (R52). -/
def commandCompute : Instr → Params → Internals → List Byte → CodecResult × Internals
  | .hamEnc => hamEncCompute
  | .hamDec => hamDecCompute
  | .convEnc => convEncCompute
  | .vitDec => vitDecCompute
  | .rsEnc => rsEncCompute
  | .rsDec => rsDecCompute

/-- What each command computes from its input sequence, without the codec-internal state (R25). -/
def commandResult (p : Params) (inp : List Byte) : Instr → CodecResult
  | .hamEnc => .done (cellsOf (hamEncode (bitsOf inp))) 0
  | .hamDec => .done (cellsOf (hamCorrect (bitsOf inp)).1) (BitVec.ofNat 4 (hamSyndrome (bitsOf inp)))
  | .convEnc => .done (cellsOf (convEncode (bitsOf inp))) 0
  | .vitDec => .done (cellsOf (viterbi (bitsOf inp))) 0
  | .rsEnc => .done (rsEncode p.nsym inp) 0
  | .rsDec =>
    match (rsDecode p inp).1 with
    | some m => .done m 0
    | none => .uncorrectable

/-- The two checks of R52 pass: the length is accepted and so is the alphabet (R146). -/
def InputAccepted (i : Instr) (s : State) : Prop :=
  lengthAccepted s.cfg s.ilen.toNat i = true ∧ AlphabetAccepted i s s.ilen.toNat

theorem exec_eq_runCommand_of (i : Instr) (s : State) :
    exec i s = .next (s.runCommand (commandLength i) (commandAlphabet i) (commandCompute i)) := by
  cases i <;> rfl

/-- The model's length checks are those of R146's table, row by row. -/
theorem commandLength_eq_lengthAccepted (i : Instr) (p : Params) (n : Nat) :
    commandLength i p n = lengthAccepted p n i := by
  have hmax : nmax = 255 := rfl
  rw [Bool.eq_iff_iff]
  cases i <;>
    simp only [commandLength, hamEncLength, hamDecLength, convEncLength, vitDecLength, rsEncLength, rsDecLength,
      lengthAccepted, Bool.and_eq_true, Bool.not_eq_true', Bool.or_eq_false_iff, decide_eq_true_eq,
      decide_eq_false_iff_not] <;>
    omega

theorem commandAlphabet_input_iff (i : Instr) (s : State) (n : Nat) :
    commandAlphabet i (s.input n) = true ↔ AlphabetAccepted i s n := by
  cases h : readsBits i with
  | false => simp [commandAlphabet, AlphabetAccepted, h, anySymbol]
  | true => simpa [commandAlphabet, AlphabetAccepted, h] using bitsOnly_input s n

/-- The result of a command does not depend on the internal state it starts from (R25). -/
theorem commandCompute_fst (i : Instr) (p : Params) (inner : Internals) (inp : List Byte) :
    (commandCompute i p inner inp).1 = commandResult p inp i := by
  cases i <;> rfl

/-- Every way in which a command can end (R52): a check fails and it raises `INVALID_INPUT`, or both pass and it ends
with its result and the working state of its computation. -/
theorem exec_next_cases {i : Instr} {s t : State} (h : exec i s = .next t) :
    (¬ InputAccepted i s ∧ t = s.raise .invalidInput) ∨
      (InputAccepted i s ∧
        t = { s with inner := (commandCompute i s.cfg s.inner (s.input s.ilen.toNat)).2 }.finish
          (commandResult s.cfg (s.input s.ilen.toNat) i)) := by
  rw [exec_eq_runCommand_of, Host.Outcome.next.injEq] at h
  simp only [InputAccepted, ← commandLength_eq_lengthAccepted, ← commandAlphabet_input_iff]
  obtain ⟨hlen, hrun⟩ | ⟨-, halpha, hrun⟩ | ⟨hlen, halpha, hrun⟩ :=
    s.runCommand_cases (commandLength i) (commandAlphabet i) (commandCompute i)
  · exact .inl ⟨by simp [hlen], h.symm.trans hrun⟩
  · exact .inl ⟨by simp [halpha], h.symm.trans hrun⟩
  · rw [commandCompute_fst] at hrun
    exact .inr ⟨⟨hlen, halpha⟩, h.symm.trans hrun⟩

@[simp] theorem State.finish_cfg (s : State) (r : CodecResult) : (s.finish r).cfg = s.cfg := by
  cases r <;> rfl

/-- No command changes the parameters (R17). -/
theorem exec_keeps_cfg {i : Instr} {s t : State} (h : exec i s = .next t) : t.cfg = s.cfg := by
  obtain ⟨-, rfl⟩ | ⟨-, rfl⟩ := exec_next_cases h
  · rfl
  · simp

/-! ### What a command computes: failure, error position, length -/

/-- Only `RS_DEC` has a computation that can fail (R147). -/
theorem commandResult_eq_uncorrectable_iff (p : Params) (inp : List Byte) (i : Instr) :
    commandResult p inp i = .uncorrectable ↔ i = .rsDec ∧ (rsDecode p inp).1 = none := by
  cases i with
  | rsDec => cases h : (rsDecode p inp).1 <;> simp [commandResult, h]
  | _ => simp [commandResult]

/-- Every command but `HAM_DEC` reports error position 0 (R14). -/
theorem errpos_of_commandResult {p : Params} {inp : List Byte} {i : Instr} {res : List Byte} {pos : BitVec 4}
    (h : commandResult p inp i = .done res pos) (hi : i ≠ .hamDec) : pos = 0 := by
  cases i with
  | hamDec => exact absurd rfl hi
  | rsDec => cases hd : (rsDecode p inp).1 <;> simp_all [commandResult]
  | _ => simp_all [commandResult]

/-- The error position of R62 is at most 7. -/
theorem hamSyndrome_le (e : List Bool) : hamSyndrome e ≤ 7 := by
  simp only [hamSyndrome]
  exact add_le_add (add_le_add (Bool.toNat_le _) (Nat.mul_le_mul_left 2 (Bool.toNat_le _)))
    (Nat.mul_le_mul_left 4 (Bool.toNat_le _))

theorem viterbi_length (r : List Bool) : (viterbi r).length = r.length / 2 := by
  simp [viterbi, segments_length]

/-- The generator has degree `NSYM` (R97). -/
theorem rsGenerator_length (nsym : Nat) : (rsGenerator nsym).length = nsym + 1 := by
  induction nsym with
  | zero => rfl
  | succ n ih =>
    have hne : rsGenerator n ≠ [] := List.ne_nil_of_length_eq_add_one ih
    simp [rsGenerator, polyMul_length _ _ hne, ih]

/-- The parity register keeps its size over a whole message (R107). -/
theorem foldl_parityStep_length (g m par : List Byte) (h : par.length = g.length) :
    (m.foldl (parityStep g) par).length = g.length := by
  induction m generalizing par with
  | nil => exact h
  | cons b m ih => exact ih _ ((parityStep_length g par b h).trans h)

/-- The parity has `NSYM` symbols (R106, R107). -/
theorem rsParity_length (nsym : Nat) (m : List Byte) : (rsParity nsym m).length = nsym := by
  have hg : (rsGenerator nsym).tail.length = nsym := by simp [rsGenerator_length]
  rw [rsParity, foldl_parityStep_length _ _ _ (by simp [hg]), hg]

/-- A decoded message is `NSYM` symbols shorter than the received word (R108). -/
theorem rsDecode_length {p : Params} {r m : List Byte} (h : (rsDecode p r).1 = some m) :
    m.length = r.length - p.nsym := by
  obtain ⟨-, hd⟩ | ⟨lam, om, ps, c, -, hc, -, hd⟩ | hd := rsDecode_cases p r
  · obtain rfl := Option.some.inj (h.symm.trans hd)
    simp
  · obtain rfl := Option.some.inj (h.symm.trans hd)
    simp [forneyCorrect_length _ _ _ _ _ _ hc]
  · rw [hd] at h; cases h

/-- The length of a result is that of the table of R46. -/
theorem length_of_commandResult {p : Params} {inp : List Byte} {i : Instr} {res : List Byte} {pos : BitVec 4}
    (h : commandResult p inp i = .done res pos) : res.length = resultLength p inp.length i := by
  cases i with
  | rsDec =>
    cases hd : (rsDecode p inp).1 with
    | none => simp [commandResult, hd] at h
    | some m =>
      simp only [commandResult, hd, CodecResult.done.injEq] at h
      obtain ⟨rfl, -⟩ := h
      exact rsDecode_length hd
  | _ =>
    simp only [commandResult, CodecResult.done.injEq] at h
    obtain ⟨rfl, -⟩ := h
    simp [resultLength, hamEncode, hamCorrect, convEncode, viterbi_length, rsEncode, rsParity_length]

/-- With legal parameters every result fits into `OBUF` (R5, R46). -/
theorem resultLength_le_bufsz {p : Params} {n : Nat} {i : Instr} (hp : p.legal = true)
    (hn : lengthAccepted p n i = true) : resultLength p n i ≤ p.bufsz := by
  simp only [Params.legal, Bool.and_eq_true, decide_eq_true_eq] at hp
  cases i <;> simp [lengthAccepted] at hn <;> simp only [resultLength] <;> omega

theorem bufsz_lt_of_legal {p : Params} (hp : p.legal = true) : p.bufsz < 2 ^ 16 := by
  simp only [Params.legal, Bool.and_eq_true, decide_eq_true_eq] at hp
  omega

theorem Memory.isSome_read_ofSeq (l : List Byte) (k : Nat) :
    ((Memory.ofSeq l).read k).isSome = decide (k < l.length) := by
  rw [Memory.ofSeq, Memory.read_ofSeqFrom, Bool.eq_iff_iff]
  simp

/-! ### What `STATUS`, `OLEN` and `OBUF` hold after a command -/

/-- What `ERR` holds after a command (R52, R146, R147). -/
theorem exec_err {i : Instr} {s t : State} (h : exec i s = .next t) :
    (¬ InputAccepted i s → t.err = .invalidInput) ∧
      (InputAccepted i s →
        t.err = if i = .rsDec ∧ (rsDecode s.cfg (s.input s.ilen.toNat)).1 = none then .uncorrectable else .ok) := by
  have hfail := commandResult_eq_uncorrectable_iff s.cfg (s.input s.ilen.toNat) i
  obtain ⟨hno, rfl⟩ | ⟨hyes, rfl⟩ := exec_next_cases h
  · simp [hno]
  · cases hr : commandResult s.cfg (s.input s.ilen.toNat) i <;> simp [hyes, ← hfail, hr]

/-- What `ERRPOS` holds after a command: 0, except after a `HAM_DEC` that succeeded (R14, R63). -/
theorem exec_errpos {i : Instr} {s t : State} (h : exec i s = .next t) :
    (t.err ≠ .ok ∨ i ≠ .hamDec → t.errpos = 0) ∧
      (t.err = .ok → i = .hamDec → t.errpos.toNat = hamSyndrome (bitsOf (s.input 7))) := by
  obtain ⟨-, rfl⟩ | ⟨⟨hlen, -⟩, rfl⟩ := exec_next_cases h
  · simp
  · refine ⟨fun hcase => ?_, fun _ hi => ?_⟩
    · cases hr : commandResult s.cfg (s.input s.ilen.toNat) i with
      | uncorrectable => simp
      | done res pos =>
        have hi : i ≠ .hamDec := by simpa [hr] using hcase
        simpa using errpos_of_commandResult hr hi
    · subst hi
      have hlen7 : s.ilen.toNat = 7 := by simpa [lengthAccepted] using hlen
      have hle := hamSyndrome_le (bitsOf (s.input 7))
      simp only [hlen7, commandResult, State.finish_done, State.succeed_errpos, BitVec.toNat_ofNat]
      omega

/-- The checks of a command look at the parameters, `ILEN` and the input cells only. -/
theorem InputAccepted.congr {i : Instr} {s s' : State} (hcfg : s.cfg = s'.cfg) (hilen : s.ilen = s'.ilen)
    (hcells : ∀ k, k < s.ilen.toNat → s.ibufCell k = s'.ibufCell k) : InputAccepted i s ↔ InputAccepted i s' := by
  have halpha : AlphabetAccepted i s s.ilen.toNat ↔ AlphabetAccepted i s' s.ilen.toNat := by
    rw [← commandAlphabet_input_iff, ← commandAlphabet_input_iff, State.input_congr s s' _ hcells]
  rw [InputAccepted, InputAccepted, halpha, hcfg, hilen]

/-- The end of a command writes the same `STATUS`, `OLEN` and `OBUF` whatever the state was (R52). -/
theorem finish_result_eq (s s' : State) (r : CodecResult) :
    (s.finish r).err = (s'.finish r).err ∧ (s.finish r).errpos = (s'.finish r).errpos ∧
      (s.finish r).olen = (s'.finish r).olen ∧ (s.finish r).obuf = (s'.finish r).obuf := by
  cases r <;> simp

/-! ### Register words, and what an access leaves -/

theorem State.readReg_status (s : State) : s.readReg 1 = (0 : BitVec 24) ++ s.errpos ++ s.err.code := rfl
theorem State.readReg_olen (s : State) : s.readReg 3 = (0 : BitVec 16) ++ s.olen := rfl
theorem State.readReg_cfg (s : State) :
    s.readReg 4 = BitVec.ofNat 16 s.cfg.bufsz ++ BitVec.ofNat 8 s.cfg.t ++ BitVec.ofNat 8 s.cfg.nsym := rfl

/-- The accesses other than a write to `CMD` and reset leave `CFG`, and what those two write: `CMD`, `STATUS`, `OLEN`,
`OBUF` (R13, R14, R16, R17, R19). -/
theorem access_keeps_result {s t : State} {a : HostAction} (ha : touchesResult a = false)
    (h : s.access a = .next t) :
    t.cfg = s.cfg ∧ t.opc = s.opc ∧ t.err = s.err ∧ t.errpos = s.errpos ∧ t.olen = s.olen ∧
      t.obuf = s.obuf := by
  cases a with
  | regRead n => cases h; simp
  | memRead sp k =>
    cases h
    cases sp with
    | ibuf => simp [State.readCell]
    | obuf => rcases s.readObuf_cases k with ⟨b, -, e⟩ | ⟨-, -, e⟩ | ⟨-, -, e⟩ <;> simp [State.readCell, e]
  | memWrite sp k v => cases h; cases sp <;> simp [State.writeCell]
  | reset => cases ha
  | regWrite n v =>
    match n with
    | 0 => cases ha
    | 2 => cases h; simp
    | 1 | _ + 3 => cases h; simp

theorem writeCmd_keeps_cfg {s t : State} {w : Word} (h : s.writeCmd w = .next t) : t.cfg = s.cfg := by
  cases hw : decode w with
  | ok i => exact exec_keeps_cfg (i := i) (s := s.recordOpc (opcField w)) (s.writeCmd_of_ok w i hw ▸ h)
  | error r =>
    rw [s.writeCmd_of_error w r hw] at h
    cases h
    rfl

/-- No access changes the parameters (R17). -/
theorem access_keeps_cfg {s t : State} {a : HostAction} (h : s.access a = .next t) : t.cfg = s.cfg := by
  cases ha : touchesResult a with
  | false => exact (access_keeps_result ha h).1
  | true =>
    cases a with
    | reset => cases h; simp
    | regWrite n v =>
      obtain rfl : n = 0 := by simpa [touchesResult] using ha
      exact writeCmd_keeps_cfg h
    | _ => cases ha

/-- No step changes the parameters (R17). -/
theorem step_keeps_cfg {s t : State} (h : step s = .next t) : t.cfg = s.cfg := by
  obtain ⟨-, rfl⟩ | ⟨a, rest, -, -, ha⟩ := step_next_cases s t h
  · rfl
  · exact (access_keeps_cfg ha).trans (s.issue_cfg rest)

/-! ### The obligations -/

/-- Settles O12: the fields by the layout of the word, and that it never changes by `step_keeps_cfg`. -/
theorem cfgRegisterNeverChanges : Obligations.CfgRegisterNeverChanges := by
  refine ⟨fun s hs => ?_, by decide +kernel, fun s v => rfl, fun s t h => ?_⟩
  · have hT : s.cfg.t = s.cfg.nsym / 2 := rfl
    have hbuf := bufsz_lt_of_legal hs
    simp only [Params.legal, Bool.and_eq_true, decide_eq_true_eq] at hs
    simp only [State.readReg_cfg, BitVec.extractLsb'_append_eq_of_le, BitVec.extractLsb'_append_eq_right, Nat.le_refl,
      Nat.reduceLeDiff, Nat.reduceSub, Nat.sub_self, BitVec.extractLsb'_eq_self, BitVec.toNat_ofNat]
    omega
  · have hcfg : t.cfg = s.cfg := step_keeps_cfg h
    exact ⟨hcfg, by rw [State.readReg_cfg, State.readReg_cfg, hcfg]⟩

/-- Settles O22: the checks agree in the two states, and so does the computation when both pass. -/
theorem resultDependsOnTheInputAlone : Obligations.ResultDependsOnTheInputAlone := by
  intro i s s' t t' hcfg hilen hcells h h'
  have hiff := InputAccepted.congr (i := i) hcfg hilen hcells
  obtain ⟨hno, rfl⟩ | ⟨hyes, rfl⟩ := exec_next_cases h <;>
    obtain ⟨hno', rfl⟩ | ⟨hyes', rfl⟩ := exec_next_cases h'
  · simp
  · exact absurd (hiff.mpr hyes') hno
  · exact absurd (hiff.mp hyes) hno'
  · have hinput : s.input s.ilen.toNat = s'.input s'.ilen.toNat := hilen ▸ State.input_congr s s' _ hcells
    rw [hcfg, hinput]
    exact finish_result_eq _ _ _

/-- Settles O11: every result has the length of R46's table, which with legal parameters fits into 16 bits. -/
theorem olenRegisterFollowsItsRule : Obligations.OlenRegisterFollowsItsRule := by
  refine ⟨fun s v => rfl, fun s => ?_, fun i s t hlegal h => ?_⟩
  · rw [State.readReg_olen]
    exact ⟨BitVec.extractLsb'_append_eq_right, BitVec.extractLsb'_append_eq_of_le le_rfl⟩
  · obtain ⟨-, rfl⟩ | ⟨⟨hlen, -⟩, rfl⟩ := exec_next_cases h
    · simp
    · cases hr : commandResult s.cfg (s.input s.ilen.toNat) i with
      | uncorrectable => simp
      | done res pos =>
        have hres : res.length = resultLength s.cfg s.ilen.toNat i := by
          simpa using length_of_commandResult hr
        have hfit : res.length < 2 ^ 16 :=
          hres ▸ (resultLength_le_bufsz hlegal hlen).trans_lt (bufsz_lt_of_legal hlegal)
        have holen : (BitVec.ofNat 16 res.length).toNat = res.length := by
          simpa using hfit
        rw [State.finish_done, State.succeed_olen, State.succeed_obuf, holen]
        exact ⟨fun herr => absurd rfl herr, fun _ => hres, Memory.isSome_read_ofSeq res⟩

/-- Settles O9: `ERR` and `ERRPOS` after a command by `exec_err` and `exec_errpos`, after any other access by
`access_keeps_result`. -/
theorem statusRegisterFollowsItsRule : Obligations.StatusRegisterFollowsItsRule := by
  refine ⟨fun s => ?_, fun s v => rfl, ⟨rfl, rfl, rfl, rfl⟩, fun i s t h => ?_, fun i s t h => ?_,
    fun s t w r hw h => ?_, fun s t a ha h => ?_⟩
  · rw [State.readReg_status]
    refine ⟨BitVec.extractLsb'_append_eq_right, ?_, ?_⟩
    · rw [BitVec.extractLsb'_append_eq_of_le le_rfl, BitVec.extractLsb'_append_eq_right]
    · rw [BitVec.extractLsb'_append_eq_of_le (by decide), BitVec.extractLsb'_append_eq_of_le (by decide)]
      rfl
  · obtain ⟨hzero, hsyn⟩ := exec_errpos h
    exact ⟨hzero, fun hok hi => ⟨hsyn hok hi, hsyn hok hi ▸ hamSyndrome_le _⟩⟩
  · obtain ⟨hinvalid, hvalid⟩ := exec_err h
    exact ⟨hinvalid, fun hlen halpha => hvalid ⟨hlen, halpha⟩⟩
  · have hraise : s.access (.regWrite 0 w) = .next ((s.recordOpc (opcField w)).raise .illegalCmd) :=
      s.writeCmd_of_error w r hw
    rw [hraise] at h
    cases h
    simp
  · obtain ⟨-, -, herr, herrpos, -, -⟩ := access_keeps_result ha h
    exact ⟨herr, herrpos⟩

end Sys2Proof.Machine

namespace Sys2Proof.Machine

/-! PROOFS. The memory and its host accesses: the index ranges (R30, R36). -/

/-- The accesses outside the index ranges: a register above 4, or a cell from `BUFSZ` on. Reset has no index. -/
theorem inRange_eq_false_iff (p : Params) (a : HostAction) :
    a.inRange p = false ↔
      (∃ n, 4 < n ∧ (a = .regRead n ∨ ∃ v, a = .regWrite n v)) ∨
        (∃ sp i, p.bufsz ≤ i ∧ (a = .memRead sp i ∨ ∃ v, a = .memWrite sp i v)) := by
  cases a <;> simp [HostAction.inRange]

/-- A pending access outside the index ranges has no step (R36). -/
theorem step_of_not_inRange (s : State) (a : HostAction) (rest : List HostAction) (h : s.pending = a :: rest)
    (hr : a.inRange s.cfg = false) : step s = .refused (.accessOutOfRange a) := by
  simp [step, State.serveNext, h, hr]

/-- Settles O14: the accesses named are those outside the index ranges, and the step refuses each of them. -/
theorem outOfRangeAccessIsRefused : Obligations.OutOfRangeAccessIsRefused := by
  intro s a rest hpending hout
  exact step_of_not_inRange s a rest hpending ((inRange_eq_false_iff s.cfg a).mpr hout)

end Sys2Proof.Machine

namespace Sys2Proof.Machine

/-! PROOFS. The encoding: a command word and its two fields, the opcode map as a bijection onto 0x01..0x06, and the
statements about decoding and about words that are no command. -/

/-! ### The fields of a word (R45) -/

/-- The fields `RSV` and `OPC` make up the whole word. -/
theorem rsvField_append_opcField (w : Word) : rsvField w ++ opcField w = w :=
  (BitVec.extractLsb'_append_extractLsb'_eq_extractLsb' rfl).trans BitVec.extractLsb'_eq_self

@[simp] theorem rsvField_encode (i : Instr) : rsvField (encode i) = 0 :=
  BitVec.extractLsb'_append_eq_left

@[simp] theorem opcField_encode (i : Instr) : opcField (encode i) = opcodeOf i :=
  BitVec.extractLsb'_append_eq_right

/-- A command's word is the one word with `RSV = 0` and its opcode. -/
theorem eq_encode_iff (w : Word) (i : Instr) : w = encode i ↔ rsvField w = 0 ∧ opcField w = opcodeOf i := by
  constructor
  · rintro rfl
    simp
  · rintro ⟨hrsv, hopc⟩
    rw [← rsvField_append_opcField w, hrsv, hopc, encode]

/-! ### The opcode map (R46) -/

/-- The two directions of the opcode map are inverse to each other. -/
theorem instrOfOpcode_eq_some_iff (c : BitVec 8) (i : Instr) : instrOfOpcode c = some i ↔ c = opcodeOf i := by
  constructor
  · intro h
    unfold instrOfOpcode at h
    split at h <;> cases h <;> exact BitVec.eq_of_toNat_eq ‹_›
  · rintro rfl
    cases i <;> rfl

/-- The bytes that are no opcode (R48). -/
theorem instrOfOpcode_eq_none_iff (c : BitVec 8) : instrOfOpcode c = none ↔ c = 0 ∨ 7 ≤ c.toNat := by
  have hzero : c = 0 ↔ c.toNat = 0 := BitVec.toNat_inj.symm
  rw [hzero]
  unfold instrOfOpcode
  split <;> simp only [reduceCtorEq, true_iff, false_iff, imp_false] at * <;> omega

/-! ### The decoder -/

/-- A word decodes to a command exactly when it is that command's word (R45). -/
theorem decode_eq_ok_iff (w : Word) (i : Instr) : decode w = .ok i ↔ w = encode i := by
  rw [eq_encode_iff, ← instrOfOpcode_eq_some_iff]
  by_cases hrsv : rsvField w = 0
  · cases h : instrOfOpcode (opcField w) <;> simp [decode, hrsv, h]
  · simp only [decode, hrsv, if_false, reduceCtorEq, false_and]

/-- The words that are no command, by their fields (R48). -/
theorem forall_ne_encode_iff (w : Word) :
    (∀ i, w ≠ encode i) ↔ rsvField w ≠ 0 ∨ opcField w = 0 ∨ 7 ≤ (opcField w).toNat := by
  rw [← instrOfOpcode_eq_none_iff, Option.eq_none_iff_forall_ne_some]
  simp only [ne_eq, eq_encode_iff, instrOfOpcode_eq_some_iff, not_and]
  exact forall_comm.trans imp_iff_not_or

/-- The decoder rejects every word that is no command (R48). -/
theorem exists_decode_eq_error {w : Word} (h : ∀ i, w ≠ encode i) : ∃ r, decode w = .error r := by
  cases hw : decode w with
  | error r => exact ⟨r, rfl⟩
  | ok i => exact absurd ((decode_eq_ok_iff w i).mp hw) (h i)

/-- A pending write to `CMD` of a word that is no command raises `IllegalCommand` and records the low byte (R48). -/
theorem step_of_illegal_word {s : State} {w : Word} {rest : List HostAction}
    (hpending : s.pending = .regWrite 0 w :: rest) (hw : ∀ i, w ≠ encode i) :
    step s = .next (((s.issue rest).recordOpc (opcField w)).raise .illegalCmd) := by
  obtain ⟨r, hr⟩ := exists_decode_eq_error hw
  exact (step_of_inRange s _ rest hpending rfl).trans (State.writeCmd_of_error _ w r hr)

/-! ### The obligations -/

/-- Settles O6: both directions of `decode_eq_ok_iff`. -/
theorem decodeAndEncodeAgree : Obligations.DecodeAndEncodeAgree :=
  ⟨fun i _ => (decode_eq_ok_iff _ i).mpr rfl, fun w i => (decode_eq_ok_iff w i).mp⟩

/-- Settles O7: the illegal words by `forall_ne_encode_iff`, what a write of one does by `step_of_illegal_word`. -/
theorem illegalWordRaisesIllegalCmd : Obligations.IllegalWordRaisesIllegalCmd :=
  ⟨forall_ne_encode_iff, fun _ _ _ hpending hw => step_of_illegal_word hpending hw, rfl⟩

end Sys2Proof.Machine

namespace Sys2Proof.Machine

/-! PROOFS. The Hamming commands: what they leave of a state whose input is a bit sequence; the syndrome as the exclusive
or of the flipped positions, from which the correction of every single error follows; and the statements about `HAM_ENC`
and `HAM_DEC`. -/

/-! ### A bit-oriented command on a bit sequence (R52) -/

/-- On bit cells of an accepted length, a bit-oriented command ends with its computation. -/
theorem exec_of_input_eq_cellsOf {i : Instr} {s : State} {n : Nat} {bits : List Bool} (hbits : readsBits i = true)
    (hilen : s.ilen.toNat = n) (hlen : commandLength i s.cfg n = true) (hinput : s.input n = cellsOf bits) :
    exec i s = .next ({ s with inner := (commandCompute i s.cfg s.inner (cellsOf bits)).2 }.finish
      (commandCompute i s.cfg s.inner (cellsOf bits)).1) := by
  subst hilen
  have halpha : commandAlphabet i (s.input s.ilen.toNat) = true := by simp [commandAlphabet, hbits, hinput]
  rw [exec_eq_runCommand_of, State.runCommand_valid s _ _ _ hlen halpha, hinput]

/-- `HAM_ENC` on four bits writes their codeword (R61). -/
theorem exec_hamEnc_of_bits {s : State} {d : List Bool} (hilen : s.ilen = 4) (hinput : s.input 4 = cellsOf d) :
    exec .hamEnc s = .next (afterResult s (cellsOf (hamEncode d)) 0 s.inner) := by
  rw [exec_of_input_eq_cellsOf rfl (congrArg BitVec.toNat hilen) rfl hinput]
  simp [commandCompute, hamEncCompute, State.succeed]

/-- `HAM_DEC` on seven bits writes what `ham_correct` of R62 gives (R63). -/
theorem exec_hamDec_of_bits {s : State} {e : List Bool} (hilen : s.ilen = 7) (hinput : s.input 7 = cellsOf e) :
    exec .hamDec s =
      .next (afterResult s (cellsOf (hamCorrect e).1) (BitVec.ofNat 4 (hamCorrect e).2) s.inner) := by
  rw [exec_of_input_eq_cellsOf rfl (congrArg BitVec.toNat hilen) rfl hinput]
  simp [commandCompute, hamDecCompute, State.succeed]

/-- Every command but `RS_DEC` ends with `OK` or `INVALID_INPUT` (R146, R147). -/
theorem exec_err_of_ne_rsDec {i : Instr} {s t : State} (hi : i ≠ .rsDec) (h : exec i s = .next t) :
    t.err = .ok ∨ t.err = .invalidInput := by
  obtain ⟨hinvalid, hvalid⟩ := exec_err h
  by_cases hacc : InputAccepted i s
  · exact .inl (by simpa [hi] using hvalid hacc)
  · exact .inr (hinvalid hacc)

/-! ### Bits of a sequence -/

theorem bitAt_xorBits {a b : List Bool} (h : a.length = b.length) (i : Nat) :
    bitAt (xorBits a b) i = (bitAt a i ^^ bitAt b i) := by
  by_cases hi : i < a.length <;> simp [bitAt, xorBits, hi, h ▸ hi]

theorem bitAt_flipAt {e : List Bool} {p : Nat} (hp : p < e.length) (i : Nat) :
    bitAt (flipAt e p) i = (bitAt e i ^^ decide (p = i)) := by
  by_cases hi : p = i
  · subst hi
    simp [bitAt, flipAt, hp]
  · simp [bitAt, flipAt, hi]

@[simp] theorem flipAt_flipAt (e : List Bool) (p : Nat) : flipAt (flipAt e p) p = e := by
  simp only [flipAt, List.modify_modify_eq, Function.comp_def, Bool.not_not]
  exact List.modify_id p e

/-- Complementing is setting to the complement, also where there is no such element. -/
theorem set_not_bitAt (e : List Bool) (p : Nat) : e.set p (!bitAt e p) = flipAt e p := by
  rw [flipAt, List.modify_eq_set_getElem?]
  by_cases hp : p < e.length
  · simp [bitAt, hp]
  · simp [hp, List.set_eq_of_length_le (not_lt.mp hp)]

/-! ### The code (R60 to R62) -/

/-- The data bits of a word stand at the indices 2, 4, 5, 6 (R60). -/
def hamData (e : List Bool) : List Bool := [bitAt e 2, bitAt e 4, bitAt e 5, bitAt e 6]

@[simp] theorem hamEncode_length (d : List Bool) : (hamEncode d).length = 7 := rfl

theorem hamFlip_zero (e : List Bool) : hamFlip e 0 = e := rfl

theorem hamFlip_succ (e : List Bool) (p : Nat) : hamFlip e (p + 1) = flipAt e p :=
  set_not_bitAt e p

theorem hamCorrect_eq (e : List Bool) : hamCorrect e = (hamData (hamFlip e (hamSyndrome e)), hamSyndrome e) := rfl

/-- The encoder is systematic: the data bits of a codeword are those it encodes. -/
theorem hamData_hamEncode {d : List Bool} (hd : d.length = 4) : hamData (hamEncode d) = d := by
  match d, hd with
  | [_, _, _, _], _ => rfl

/-- The syndrome as a binary number with the check bits of R62 as its digits. -/
theorem hamSyndrome_eq_bit (e : List Bool) : hamSyndrome e =
    Nat.bit (bitAt e 0 ^^ bitAt e 2 ^^ bitAt e 4 ^^ bitAt e 6)
      (Nat.bit (bitAt e 1 ^^ bitAt e 2 ^^ bitAt e 5 ^^ bitAt e 6)
        (Nat.bit (bitAt e 3 ^^ bitAt e 4 ^^ bitAt e 5 ^^ bitAt e 6) 0)) := by
  simp only [hamSyndrome, Nat.bit_val]
  omega

/-- A word is the codeword of its data bits exactly when its syndrome is 0 (R62). -/
theorem hamSyndrome_eq_zero_iff {e : List Bool} (he : e.length = 7) :
    hamSyndrome e = 0 ↔ hamEncode (hamData e) = e := by
  match e, he with
  | [e0, e1, e2, e3, e4, e5, e6], _ =>
    have hchecks : hamSyndrome [e0, e1, e2, e3, e4, e5, e6] = 0 ↔
        e0 = (e2 ^^ e4 ^^ e6) ∧ e1 = (e2 ^^ e5 ^^ e6) ∧ e3 = (e4 ^^ e5 ^^ e6) := by
      simp [hamSyndrome_eq_bit, Nat.bit_eq_zero_iff, bitAt, and_comm]
    have hparity : hamEncode (hamData [e0, e1, e2, e3, e4, e5, e6]) = [e0, e1, e2, e3, e4, e5, e6] ↔
        e0 = (e2 ^^ e4 ^^ e6) ∧ e1 = (e2 ^^ e5 ^^ e6) ∧ e3 = (e4 ^^ e5 ^^ e6) := by
      simp [hamEncode, hamData, bitAt, eq_comm]
    exact hchecks.trans hparity.symm

/-- A codeword has syndrome 0 (R62). -/
theorem hamSyndrome_hamEncode {d : List Bool} (hd : d.length = 4) : hamSyndrome (hamEncode d) = 0 := by
  rw [hamSyndrome_eq_zero_iff (hamEncode_length d), hamData_hamEncode hd]

/-- Flipping one bit changes the syndrome by its 1-indexed position: each position is the number of the checks that
cover it (R60, R62). -/
theorem hamSyndrome_flipAt {e : List Bool} (he : e.length = 7) {p : Nat} (hp : p < 7) :
    hamSyndrome (flipAt e p) = hamSyndrome e ^^^ (p + 1) := by
  have hposition : p + 1 = Nat.bit (decide (p = 0) ^^ decide (p = 2) ^^ decide (p = 4) ^^ decide (p = 6))
      (Nat.bit (decide (p = 1) ^^ decide (p = 2) ^^ decide (p = 5) ^^ decide (p = 6))
        (Nat.bit (decide (p = 3) ^^ decide (p = 4) ^^ decide (p = 5) ^^ decide (p = 6)) 0)) := by
    revert p; decide
  conv_rhs => rw [hposition]
  simp only [hamSyndrome_eq_bit, bitAt_flipAt (he ▸ hp), Nat.xor_bit, Nat.xor_self, Bool.xor_assoc, Bool.xor_left_comm]

/-- The flip of R62 takes every word of seven bits to a codeword: the syndrome names the flipped position. -/
theorem hamSyndrome_hamFlip {e : List Bool} (he : e.length = 7) : hamSyndrome (hamFlip e (hamSyndrome e)) = 0 := by
  have hle := hamSyndrome_le e
  cases hpos : hamSyndrome e with
  | zero => rw [hamFlip_zero, hpos]
  | succ p => rw [hamFlip_succ, hamSyndrome_flipAt he (by omega), hpos, Nat.xor_self]

/-- R64: a codeword is corrected to its data, with position 0. -/
theorem hamCorrect_hamEncode {d : List Bool} (hd : d.length = 4) : hamCorrect (hamEncode d) = (d, 0) := by
  rw [hamCorrect_eq, hamSyndrome_hamEncode hd, hamFlip_zero, hamData_hamEncode hd]

/-- R64: a codeword with one bit flipped is corrected to its data, with the position of the flip. -/
theorem hamCorrect_flipAt_hamEncode {d : List Bool} (hd : d.length = 4) {p : Nat} (hp : p < 7) :
    hamCorrect (flipAt (hamEncode d) p) = (d, p + 1) := by
  have hpos : hamSyndrome (flipAt (hamEncode d) p) = p + 1 := by
    rw [hamSyndrome_flipAt (hamEncode_length d) hp, hamSyndrome_hamEncode hd, Nat.zero_xor]
  rw [hamCorrect_eq, hpos, hamFlip_succ, flipAt_flipAt, hamData_hamEncode hd]

/-- R61: the code is linear, because every bit of a codeword is an exclusive or of data bits. -/
theorem hamEncode_xorBits {a b : List Bool} (h : a.length = b.length) :
    hamEncode (xorBits a b) = xorBits (hamEncode a) (hamEncode b) := by
  simp only [hamEncode, bitAt_xorBits h]
  simp [xorBits, Bool.xor_left_comm]

/-! ### The obligations -/

/-- Settles O23: the result by `exec_hamEnc_of_bits`, the linearity by `hamEncode_xorBits`. -/
theorem hamEncWritesTheCodeword : Obligations.HamEncWritesTheCodeword :=
  ⟨fun _ _ _ _ _ hilen hinput => exec_hamEnc_of_bits hilen hinput,
    fun _ _ => exec_err_of_ne_rsDec (by decide), rfl, fun _ _ ha hb => hamEncode_xorBits (ha.trans hb.symm)⟩

/-- Settles O24: the result by `exec_hamDec_of_bits`; the word after the flip has syndrome 0 by `hamSyndrome_hamFlip`, so
it is the codeword of its data bits. -/
theorem hamDecWritesTheCorrectedData : Obligations.HamDecWritesTheCorrectedData := by
  refine ⟨fun s e he hilen hinput => ?_, fun _ _ => exec_err_of_ne_rsDec (by decide), rfl⟩
  intro s1 s2 s3 pos c
  have hc : c = hamFlip e (hamSyndrome e) := by
    simp only [hamFlip, set_not_bitAt]
    rfl
  have hlen : c.length = 7 := by
    simp only [c]
    split <;> simp [he]
  have hcodeword : hamEncode (hamData c) = c :=
    (hamSyndrome_eq_zero_iff hlen).mp (hc ▸ hamSyndrome_hamFlip he)
  refine ⟨?_, hamData c, rfl, hcodeword.symm⟩
  rw [exec_hamDec_of_bits hilen hinput, hamCorrect_eq, ← hc]
  rfl

/-- Settles O25: both cases by `exec_hamDec_of_bits` and what `ham_correct` gives on the word. -/
theorem hamDecCorrectsEverySingleError : Obligations.HamDecCorrectsEverySingleError := by
  intro s d hd hilen
  refine ⟨fun hinput => ?_, fun p hp hinput => ?_⟩
  · rw [exec_hamDec_of_bits hilen hinput, hamCorrect_hamEncode hd]
    rfl
  · rw [exec_hamDec_of_bits hilen hinput, hamCorrect_flipAt_hamEncode hd hp]

end Sys2Proof.Machine

namespace Sys2Proof.Machine

/-! PROOFS. The convolutional code and its decoder: the trellis; the reference formulation of R79 as a choice between the
two extended paths of each destination; the survivor memory as a compressed table of paths, which ties `VIT_DEC` to that
formulation; the invariant of the retained paths, from which the optimality of R80 follows; and the statements about
`VIT_DEC`. -/

/-! ### The trellis (R71) -/

/-- The two predecessors of a state, both with the state's `s0` as input bit (R71). -/
theorem convNext_eq_iff (p : ConvState) (b : Bool) (ns : ConvState) :
    convNext p b = ns ↔ b = ns.s0 ∧ (p = ⟨ns.s1, false⟩ ∨ p = ⟨ns.s1, true⟩) := by
  obtain ⟨p0, p1⟩ := p
  obtain ⟨x, y⟩ := ns
  cases p1 <;> simp [convNext]

theorem mem_convStates (st : ConvState) : st ∈ convStates := by
  obtain ⟨x, y⟩ := st
  cases x <;> cases y <;> decide

theorem Quad.ext_get {α : Type} {q q' : Quad α} (h : ∀ st, q.get st = q'.get st) : q = q' := by
  have h00 : q.s00 = q'.s00 := h ⟨false, false⟩
  have h01 : q.s01 = q'.s01 := h ⟨false, true⟩
  have h10 : q.s10 = q'.s10 := h ⟨true, false⟩
  have h11 : q.s11 = q'.s11 := h ⟨true, true⟩
  cases q
  cases q'
  simp_all

/-! ### The encoder from the end of the message (R72) -/

@[simp] theorem convEncode_length (m : List Bool) : (convEncode m).length = 2 * m.length :=
  convEncodeFrom_length convStart m

@[simp] theorem convFinal_concat (m : List Bool) (b : Bool) : convFinal (m ++ [b]) = convNext (convFinal m) b := by
  simp [convFinal]

theorem convEncodeFrom_append (st : ConvState) (m m' : List Bool) :
    convEncodeFrom st (m ++ m') = convEncodeFrom st m ++ convEncodeFrom (m.foldl convNext st) m' := by
  induction m generalizing st with
  | nil => rfl
  | cons b m ih => simp [convEncodeFrom, ih]

theorem convEncode_concat (m : List Bool) (b : Bool) :
    convEncode (m ++ [b]) = convEncode m ++ [(convOut (convFinal m) b).1, (convOut (convFinal m) b).2] :=
  convEncodeFrom_append convStart m [b]

/-- From any register value distinct messages have distinct codewords: the first bit in which they differ changes the
first output of its step (R80). -/
theorem convEncodeFrom_injective (st : ConvState) : Function.Injective (convEncodeFrom st) := by
  intro m m' h
  induction m generalizing st m' with
  | nil => cases m' <;> simp_all [convEncodeFrom]
  | cons b m ih =>
    cases m' with
    | nil => simp [convEncodeFrom] at h
    | cons b' m' =>
      simp only [convEncodeFrom, List.cons.injEq] at h
      obtain ⟨hout, -, hrest⟩ := h
      have hb : b = b' := by simpa [convOut] using hout
      subst hb
      rw [ih _ hrest]

/-! ### The distance, segment by segment (R8, R73) -/

/-- The bits that a sequence of segments was cut from. -/
def bitsOfSegments (segs : List (Bool × Bool)) : List Bool := segs.flatMap fun seg => [seg.1, seg.2]

theorem bitsOfSegments_segments : ∀ {r : List Bool}, r.length % 2 = 0 → bitsOfSegments (segments r) = r
  | [], _ => rfl
  | [_], h => by simp at h
  | a :: b :: r, h => by
    have ih := bitsOfSegments_segments (r := r) (by simp only [List.length_cons] at h; omega)
    simpa [segments, bitsOfSegments] using ih

@[simp] theorem bitsOfSegments_length (segs : List (Bool × Bool)) : (bitsOfSegments segs).length = 2 * segs.length := by
  simp [bitsOfSegments, Nat.mul_comm]

theorem bitDistance_append {a b : List Bool} (h : a.length = b.length) (a' b' : List Bool) :
    bitDistance (a ++ a') (b ++ b') = bitDistance a b + bitDistance a' b' := by
  induction a generalizing b with
  | nil => cases b <;> simp_all [bitDistance]
  | cons x a ih =>
    cases b with
    | nil => simp at h
    | cons y b => simp [bitDistance, ih (by simpa using h), Nat.add_assoc]

theorem bitDistance_eq_zero_iff {a b : List Bool} (h : a.length = b.length) : bitDistance a b = 0 ↔ a = b := by
  induction a generalizing b with
  | nil => cases b <;> simp_all [bitDistance]
  | cons x a ih =>
    cases b with
    | nil => simp at h
    | cons y b => simp [bitDistance, ih (by simpa using h)]

/-- The branch metric of R73 is the Hamming distance of the output pair from the segment. -/
theorem bitDistance_pair (o seg : Bool × Bool) : bitDistance [o.1, o.2] [seg.1, seg.2] = branchMetric seg o := by
  obtain ⟨o0, o1⟩ := o
  obtain ⟨r0, r1⟩ := seg
  cases o0 <;> cases o1 <;> cases r0 <;> cases r1 <;> rfl

/-- The Hamming distance of the codeword of a message from the received segments (R80). -/
def messageDistance (segs : List (Bool × Bool)) (m : List Bool) : Nat := bitDistance (convEncode m) (bitsOfSegments segs)

/-- One more segment adds the branch metric of the transition that the message's next bit takes. -/
theorem messageDistance_concat {segs : List (Bool × Bool)} {m : List Bool} (h : m.length = segs.length)
    (seg : Bool × Bool) (b : Bool) :
    messageDistance (segs ++ [seg]) (m ++ [b]) =
      messageDistance segs m + branchMetric seg (convOut (convFinal m) b) := by
  have hbits : bitsOfSegments (segs ++ [seg]) = bitsOfSegments segs ++ [seg.1, seg.2] := by simp [bitsOfSegments]
  rw [messageDistance, convEncode_concat, hbits, bitDistance_append (by simp [h]), bitDistance_pair, messageDistance]

theorem messageDistance_segments {r : List Bool} (h : r.length % 2 = 0) (m : List Bool) :
    messageDistance (segments r) m = bitDistance (convEncode m) r := by
  rw [messageDistance, bitsOfSegments_segments h]

/-! ### Keeping the better of two paths (R79) -/

/-- The retained one of two paths that may exist, each with its metric: the first unless the second is strictly better. -/
def keepBetter : Option (Nat × List Bool) → Option (Nat × List Bool) → Option (Nat × List Bool)
  | none, y => y
  | some x, none => some x
  | some x, some y => if y.1 < x.1 then some y else some x

@[simp] theorem keepBetter_none_left (y : Option (Nat × List Bool)) : keepBetter none y = y := rfl

@[simp] theorem keepBetter_none_right (x : Option (Nat × List Bool)) : keepBetter x none = x := by cases x <;> rfl

theorem keepBetter_eq_or (x y : Option (Nat × List Bool)) : keepBetter x y = x ∨ keepBetter x y = y := by
  cases x <;> cases y <;> simp only [keepBetter, true_or, or_true]
  split <;> simp

/-- What is kept is no worse than either path. -/
theorem keepBetter_le {x y : Option (Nat × List Bool)} {z : Nat × List Bool} (h : x = some z ∨ y = some z) :
    ∃ w, keepBetter x y = some w ∧ w.1 ≤ z.1 := by
  cases x with
  | none => exact ⟨z, by simpa using h, le_rfl⟩
  | some x =>
    cases y with
    | none => exact ⟨z, by simpa using h, le_rfl⟩
    | some y =>
      simp only [Option.some.injEq] at h
      simp only [keepBetter]
      split <;> refine ⟨_, rfl, ?_⟩ <;> rcases h with rfl | rfl <;> omega

/-- The scan of R79 over the final states keeps the better path at every state. -/
theorem refBetter_eq_keepBetter (P : Paths) (best : Option (Nat × List Bool)) (st : ConvState) :
    refBetter P best st = keepBetter best (P.get st) := by
  cases hst : P.get st <;> cases best <;> simp [refBetter, keepBetter, hst]

/-- What the scan keeps is no worse than the path it began with or the path of any state scanned. -/
theorem foldl_refBetter_le {P : Paths} {l : List ConvState} {best : Option (Nat × List Bool)} {z : Nat × List Bool}
    (h : best = some z ∨ ∃ st ∈ l, P.get st = some z) : ∃ w, l.foldl (refBetter P) best = some w ∧ w.1 ≤ z.1 := by
  induction l generalizing best z with
  | nil => exact ⟨z, by simpa using h, le_rfl⟩
  | cons st l ih =>
    rw [List.foldl_cons, refBetter_eq_keepBetter]
    by_cases hhead : best = some z ∨ P.get st = some z
    · obtain ⟨y, hy, hyz⟩ := keepBetter_le hhead
      obtain ⟨w, hw, hwy⟩ := ih (.inl hy)
      exact ⟨w, hw, hwy.trans hyz⟩
    · refine ih (.inr ?_)
      simp only [List.mem_cons, exists_eq_or_imp] at h
      tauto

/-! ### One segment of the reference formulation (R79) -/

/-- The retained path of state `p`, if there is one, extended by input bit `b`. -/
def extendPath (P : Paths) (seg : Bool × Bool) (p : ConvState) (b : Bool) : Option (Nat × List Bool) :=
  (P.get p).map fun x => (x.1 + branchMetric seg (convOut p b), x.2 ++ [b])

theorem extendPath_eq_some_iff {P : Paths} {seg : Bool × Bool} {p : ConvState} {b : Bool} {x : Nat × List Bool} :
    extendPath P seg p b = some x ↔
      ∃ c path, P.get p = some (c, path) ∧ (c + branchMetric seg (convOut p b), path ++ [b]) = x := by
  simp [extendPath]

/-- One transition of the inner loop of R79 offers the extended path to its destination. -/
theorem refExtend_get (old : Paths) (seg : Bool × Bool) (new : Paths) (p : ConvState) (b : Bool) (st : ConvState) :
    (refExtend old seg new (p, b)).get st =
      if st = convNext p b then keepBetter (new.get st) (extendPath old seg p b) else new.get st := by
  cases hold : old.get p with
  | none => simp [refExtend, extendPath, hold]
  | some x =>
    cases hnew : new.get (convNext p b) with
    | none =>
      simp only [refExtend, extendPath, hold, hnew, Quad.get_set, Option.map_some]
      split <;> simp_all
    | some y =>
      simp only [refExtend, extendPath, hold, hnew, Option.map_some]
      by_cases hst : st = convNext p b
      · subst hst
        split <;> simp_all [keepBetter, Quad.get_set]
      · split <;> simp [Quad.get_set, hst]

/-- After one segment each state retains the better of its two extended paths, the one from `(y, 0)` first: the two
transitions into it come in that order among the eight (R79, R81). -/
theorem refStep_get (old : Paths) (seg : Bool × Bool) (ns : ConvState) :
    (refStep old seg).get ns =
      keepBetter (extendPath old seg ⟨ns.s1, false⟩ ns.s0) (extendPath old seg ⟨ns.s1, true⟩ ns.s0) := by
  obtain ⟨x, y⟩ := ns
  cases x <;> cases y <;>
    simp [refStep, refOrder, convStates, refExtend_get, convNext] <;> rfl

/-- A retained path extends that of a predecessor. -/
theorem exists_extendPath_of_refStep {old : Paths} {seg : Bool × Bool} {ns : ConvState} {x : Nat × List Bool}
    (h : (refStep old seg).get ns = some x) : ∃ p, convNext p ns.s0 = ns ∧ extendPath old seg p ns.s0 = some x := by
  rw [refStep_get] at h
  rcases keepBetter_eq_or (extendPath old seg ⟨ns.s1, false⟩ ns.s0) (extendPath old seg ⟨ns.s1, true⟩ ns.s0) with e | e
  · exact ⟨_, rfl, e ▸ h⟩
  · exact ⟨_, rfl, e ▸ h⟩

/-- The path that a state retains is no worse than any extended path that arrives there. -/
theorem refStep_le {old : Paths} {seg : Bool × Bool} {p ns : ConvState} {x : Nat × List Bool}
    (hnext : convNext p ns.s0 = ns) (h : extendPath old seg p ns.s0 = some x) :
    ∃ y, (refStep old seg).get ns = some y ∧ y.1 ≤ x.1 := by
  rw [refStep_get]
  obtain ⟨-, rfl | rfl⟩ := (convNext_eq_iff p ns.s0 ns).mp hnext
  · exact keepBetter_le (.inl h)
  · exact keepBetter_le (.inr h)

/-! ### The survivor memory holds the retained paths (R75, R77) -/

/-- The paths that metrics and survivor rows stand for: the path of a reachable state is what the trace-back from it
reads out of the rows, last segment first. -/
def pathsOf (m : Metrics) (rows : List (Quad (Option Bool))) : Paths :=
  Quad.tabulate fun st => (m.get st).map fun c => (c, traceback rows st [])

@[simp] theorem pathsOf_get (m : Metrics) (rows : List (Quad (Option Bool))) (st : ConvState) :
    (pathsOf m rows).get st = (m.get st).map fun c => (c, traceback rows st []) := by simp [pathsOf]

theorem traceback_eq_append (rows : List (Quad (Option Bool))) (cur : ConvState) (tail : List Bool) :
    traceback rows cur tail = traceback rows cur [] ++ tail := by
  induction rows generalizing cur tail with
  | nil => rfl
  | cons row rows ih =>
    rw [traceback, traceback, ih, ih _ [cur.s0]]
    simp

/-- The trace-back of one more row: the path of the recorded predecessor and the last input bit (R77). -/
theorem traceback_cons (row : Quad (Option Bool)) (rows : List (Quad (Option Bool))) (cur : ConvState) :
    traceback (row :: rows) cur [] = traceback rows (predecessor row cur) [] ++ [cur.s0] :=
  traceback_eq_append rows (predecessor row cur) [cur.s0]

/-- Extending a path that the survivor memory holds takes its metric to the candidate of R74. -/
theorem extendPath_pathsOf (m : Metrics) (rows : List (Quad (Option Bool))) (seg : Bool × Bool) (p : ConvState)
    (b : Bool) :
    extendPath (pathsOf m rows) seg p b = (candidate m seg p b).map fun c => (c, traceback rows p [] ++ [b]) := by
  simp [extendPath, candidate, Function.comp_def]

/-- The select of R74 and the better of two paths have one tie rule: the decision bit names the path kept. The path of
bit `false` or `true` is `path`; `undecided` is the bit read where neither candidate exists. -/
theorem keepBetter_map_eq_select (c0 c1 : Option Nat) (path : Bool → List Bool) (undecided : Bool) :
    keepBetter (c0.map fun c => (c, path false)) (c1.map fun c => (c, path true)) =
      (select c0 c1).1.map fun c => (c, path ((select c0 c1).2.getD undecided)) := by
  cases c0 <;> cases c1 <;> simp only [keepBetter, select, Option.map_some, Option.map_none, Option.getD_some]
  split <;> rfl

/-- One segment of the reference formulation does to the paths what add-compare-select and its new survivor row do
(R79). -/
theorem refStep_pathsOf (m : Metrics) (rows : List (Quad (Option Bool))) (seg : Bool × Bool) :
    refStep (pathsOf m rows) seg = pathsOf (acsMetrics m seg) (acsDecisions m seg :: rows) := by
  refine Quad.ext_get fun ns => ?_
  rw [refStep_get, extendPath_pathsOf, extendPath_pathsOf, pathsOf_get, traceback_cons,
    keepBetter_map_eq_select _ _ (fun d => traceback rows ⟨ns.s1, d⟩ [] ++ [ns.s0]) Config.survUndecided]
  simp [acsMetrics, acsDecisions, acsAt, predecessor]

theorem pathsStart_eq_pathsOf : pathsStart = pathsOf metricsStart [] := rfl

/-- The forward pass computes the reference formulation's paths, as metrics and survivor rows (R79). -/
theorem foldl_refStep_pathsOf (m : Metrics) (rows : List (Quad (Option Bool))) (segs : List (Bool × Bool)) :
    segs.foldl refStep (pathsOf m rows) =
      pathsOf (viterbiForward m segs).1 ((viterbiForward m segs).2.reverse ++ rows) := by
  induction segs generalizing m rows with
  | nil => rfl
  | cons seg segs ih => simp [viterbiForward, refStep_pathsOf, ih]

/-! ### The final state (R76) -/

/-- The scan of R76 over the metrics and that of R79 over the paths go together. -/
theorem refBetter_pathsOf (m : Metrics) (rows : List (Quad (Option Bool))) (best st : ConvState) :
    refBetter (pathsOf m rows) ((pathsOf m rows).get best) st = (pathsOf m rows).get (betterOf m best st) := by
  cases hst : m.get st <;> cases hbest : m.get best <;> simp [refBetter, betterOf, hst, hbest]
  split <;> simp [hst, hbest]

theorem foldl_refBetter_pathsOf (m : Metrics) (rows : List (Quad (Option Bool))) (l : List ConvState)
    (best : ConvState) :
    l.foldl (refBetter (pathsOf m rows)) ((pathsOf m rows).get best) =
      (pathsOf m rows).get (l.foldl (betterOf m) best) := by
  induction l generalizing best with
  | nil => rfl
  | cons st l ih => rw [List.foldl_cons, refBetter_pathsOf, ih, List.foldl_cons]

/-- The path that R79 chooses is that of the final state of R76. R79 begins with no best path and R76 here with state
`00`; the first state scanned is `00`. -/
theorem foldl_refBetter_convStates (m : Metrics) (rows : List (Quad (Option Bool))) :
    convStates.foldl (refBetter (pathsOf m rows)) none = (pathsOf m rows).get (bestState m) := by
  have hfirst : refBetter (pathsOf m rows) none convStart = (pathsOf m rows).get convStart := by
    rw [refBetter_eq_keepBetter, keepBetter_none_left]
  have hstart : betterOf m convStart convStart = convStart := by
    cases h : m.get convStart <;> simp [betterOf, h]
  have hbest : bestState m = convStates.tail.foldl (betterOf m) convStart :=
    congrArg (convStates.tail.foldl (betterOf m)) hstart
  calc convStates.foldl (refBetter (pathsOf m rows)) none
      = convStates.tail.foldl (refBetter (pathsOf m rows)) ((pathsOf m rows).get convStart) := by rw [← hfirst]; rfl
    _ = (pathsOf m rows).get (convStates.tail.foldl (betterOf m) convStart) := foldl_refBetter_pathsOf ..
    _ = (pathsOf m rows).get (bestState m) := by rw [hbest]

/-! ### The retained paths are nearest (R80) -/

/-- What the paths retained after the segments `segs` are: messages of that length that end in their state, each with
its distance, and for every message one at its final state that is no farther. -/
structure Survivors (segs : List (Bool × Bool)) (P : Paths) : Prop where
  sound : ∀ {st c path}, P.get st = some (c, path) →
    path.length = segs.length ∧ convFinal path = st ∧ c = messageDistance segs path
  nearest : ∀ {m : List Bool}, m.length = segs.length →
    ∃ x, P.get (convFinal m) = some x ∧ x.1 ≤ messageDistance segs m

theorem survivors_nil : Survivors [] pathsStart where
  sound {st c path} h := by
    obtain ⟨x, y⟩ := st
    cases x <;> cases y <;> simp [pathsStart, Quad.get] at h
    obtain ⟨rfl, rfl⟩ := h
    exact ⟨rfl, rfl, rfl⟩
  nearest {m} h := by
    obtain rfl := List.length_eq_zero_iff.mp h
    exact ⟨(0, []), rfl, le_rfl⟩

/-- One segment of the reference formulation keeps the invariant: a retained path extends one of a predecessor, and
the extension of the path at a message's last state but one is offered to its last state. -/
theorem Survivors.refStep {segs : List (Bool × Bool)} {P : Paths} (h : Survivors segs P) (seg : Bool × Bool) :
    Survivors (segs ++ [seg]) (refStep P seg) where
  sound {st c path} hst := by
    obtain ⟨p, hnext, hext⟩ := exists_extendPath_of_refStep hst
    obtain ⟨c', path', hp, he⟩ := extendPath_eq_some_iff.mp hext
    obtain ⟨rfl, rfl⟩ := Prod.mk.inj he
    obtain ⟨hlen, rfl, rfl⟩ := h.sound hp
    exact ⟨by simp [hlen], by rw [convFinal_concat, hnext], (messageDistance_concat hlen seg _).symm⟩
  nearest {m} hm := by
    obtain rfl | ⟨m, b, rfl⟩ := List.eq_nil_or_concat' m
    · simp at hm
    have hm : m.length = segs.length := by simpa using hm
    obtain ⟨⟨c, path⟩, hget, hle⟩ := h.nearest hm
    have hext : extendPath P seg (convFinal m) b = some (c + branchMetric seg (convOut (convFinal m) b), path ++ [b]) :=
      extendPath_eq_some_iff.mpr ⟨c, path, hget, rfl⟩
    obtain ⟨y, hy, hyle⟩ := refStep_le (ns := convNext (convFinal m) b) rfl hext
    rw [convFinal_concat, messageDistance_concat hm]
    exact ⟨y, hy, hyle.trans (Nat.add_le_add_right hle _)⟩

theorem survivors_foldl_refStep (segs : List (Bool × Bool)) : Survivors segs (segs.foldl refStep pathsStart) := by
  induction segs using List.reverseRecOn with
  | nil => exact survivors_nil
  | append_singleton segs seg ih =>
    rw [List.foldl_concat]
    exact ih.refStep seg

/-- The path that the final scan chooses is nearest of all messages of its length. -/
theorem Survivors.exists_best {segs : List (Bool × Bool)} {m : Metrics} {rows : List (Quad (Option Bool))}
    (h : Survivors segs (pathsOf m rows)) :
    m.get (bestState m) = some (messageDistance segs (traceback rows (bestState m) [])) ∧
      ∀ m' : List Bool, m'.length = segs.length →
        messageDistance segs (traceback rows (bestState m) []) ≤ messageDistance segs m' := by
  have hle : ∀ m' : List Bool, m'.length = segs.length →
      ∃ c, m.get (bestState m) = some c ∧ c ≤ messageDistance segs m' := fun m' hm' => by
    obtain ⟨x, hx, hxle⟩ := h.nearest hm'
    obtain ⟨w, hw, hwx⟩ := foldl_refBetter_le (best := none) (.inr ⟨_, mem_convStates _, hx⟩)
    rw [foldl_refBetter_convStates, pathsOf_get, Option.map_eq_some_iff] at hw
    obtain ⟨c, hc, rfl⟩ := hw
    exact ⟨c, hc, hwx.trans hxle⟩
  obtain ⟨c, hc, -⟩ := hle (List.replicate segs.length false) (by simp)
  obtain ⟨-, -, rfl⟩ := h.sound (st := bestState m) (c := c) (path := traceback rows (bestState m) []) (by simp [hc])
  refine ⟨hc, fun m' hm' => ?_⟩
  obtain ⟨c', hc', hc'le⟩ := hle m' hm'
  rw [hc, Option.some.injEq] at hc'
  exact hc' ▸ hc'le

/-! ### `VIT_DEC` as a function of the received bits (R78) -/

/-- The reference formulation's final paths are those of the forward pass of R78. -/
theorem foldl_refStep_segments (r : List Bool) :
    (segments r).foldl refStep pathsStart =
      pathsOf (viterbiForward metricsStart (segments r)).1 (viterbiForward metricsStart (segments r)).2.reverse := by
  rw [pathsStart_eq_pathsOf, foldl_refStep_pathsOf, List.append_nil]

/-- The metric of the final state is the decoded message's distance, and no message is nearer (R80). -/
theorem viterbi_nearest (r : List Bool) :
    (viterbiForward metricsStart (segments r)).1.get (bestState (viterbiForward metricsStart (segments r)).1) =
        some (messageDistance (segments r) (viterbi r)) ∧
      ∀ m' : List Bool, m'.length = (segments r).length →
        messageDistance (segments r) (viterbi r) ≤ messageDistance (segments r) m' :=
  (foldl_refStep_segments r ▸ survivors_foldl_refStep (segments r)).exists_best

/-- `VIT_DEC` decodes as the reference formulation does, on every input (R79). -/
theorem viterbiReference_eq (r : List Bool) : viterbiReference r = some (viterbi r) := by
  obtain ⟨hbest, -⟩ := viterbi_nearest r
  rw [viterbiReference, foldl_refStep_segments, foldl_refBetter_convStates, pathsOf_get, hbest]
  rfl

/-- A clean codeword decodes to its message: that message is at distance 0, and no other is (R80). -/
theorem viterbi_convEncode (m : List Bool) : viterbi (convEncode m) = m := by
  have heven : (convEncode m).length % 2 = 0 := by simp
  obtain ⟨-, hnearest⟩ := viterbi_nearest (convEncode m)
  have hle := hnearest m (by simp [segments_length])
  rw [messageDistance_segments heven, messageDistance_segments heven, (bitDistance_eq_zero_iff rfl).mpr rfl,
    Nat.le_zero, bitDistance_eq_zero_iff (by simp [viterbi_length])] at hle
  exact convEncodeFrom_injective convStart hle

/-! ### The obligations -/

/-- Settles O29: the result by `exec_of_input_eq_cellsOf`, the path by `viterbiReference_eq`. -/
theorem vitDecWritesTheReferencePath : Obligations.VitDecWritesTheReferencePath := by
  refine ⟨fun s r heven hmin hmax hilen hinput => ?_, fun _ _ => exec_err_of_ne_rsDec (by decide), rfl⟩
  have hlen : commandLength .vitDec s.cfg r.length = true := by simp [commandLength, vitDecLength, heven, hmin, hmax]
  refine ⟨viterbi r, (vitDecCompute s.cfg s.inner (cellsOf r)).2.metrics,
    (vitDecCompute s.cfg s.inner (cellsOf r)).2.surv, viterbiReference_eq r, viterbi_length r, ?_⟩
  rw [exec_of_input_eq_cellsOf rfl hilen hlen hinput]
  simp [commandCompute, vitDecCompute, State.succeed]

/-- Settles O30: `viterbi_nearest` read as distances of whole words, and `viterbi_convEncode`. -/
theorem viterbiFindsANearestMessage : Obligations.ViterbiFindsANearestMessage := by
  refine ⟨fun r heven => ?_, viterbi_convEncode⟩
  obtain ⟨hmetric, hnearest⟩ := viterbi_nearest r
  simp only [messageDistance_segments heven, segments_length] at hmetric hnearest
  exact ⟨viterbi_length r, hnearest, hmetric⟩

/-- Settles O27: the eight transitions by evaluation, the predecessors by `convNext_eq_iff`. -/
theorem trellisMatchesTheTable : Obligations.TrellisMatchesTheTable :=
  ⟨by decide, fun p b x y => convNext_eq_iff p b ⟨x, y⟩⟩

end Sys2Proof.Machine

namespace Sys2Proof.Machine

/-! PROOFS. The field: doubling as a linear map and the laws of the product that its loop gives; the powers of α,
their period and their exhaustion of the non-zero elements; inverses and powers as arithmetic on exponents (R90 to R95). -/

/-! ### Doubling and the product (R92) -/

/-- Doubling on 8 bits: the bit shifted out is replaced by the rest of the polynomial (R90). -/
theorem gfDouble_eq : ∀ a : Byte, gfDouble a = a <<< 1 ^^^ (if a.msb then 0x1D else 0) := by decide +kernel

theorem gfDouble_xor (a b : Byte) : gfDouble (a ^^^ b) = gfDouble a ^^^ gfDouble b := by
  have hreduce : ∀ p q : Bool,
      (if p ^^ q then 0x1D else 0 : Byte) = (if p then 0x1D else 0) ^^^ (if q then 0x1D else 0) := by decide
  rw [gfDouble_eq, gfDouble_eq, gfDouble_eq, BitVec.shiftLeft_xor_distrib, BitVec.msb_xor, hreduce]
  ac_rfl

theorem gfMulLoop_xor (b : Byte) (n i : Nat) (a a' r r' : Byte) :
    gfMulLoop b n i (a ^^^ a') (r ^^^ r') = gfMulLoop b n i a r ^^^ gfMulLoop b n i a' r' := by
  induction n generalizing i a a' r r' with
  | zero => rfl
  | succ n ih =>
    simp only [gfMulLoop, gfDouble_xor, ← ih]
    split
    · ac_rfl
    · rfl

theorem gfMulLoop_gfDouble (b : Byte) (n i : Nat) (a r : Byte) :
    gfMulLoop b n i (gfDouble a) (gfDouble r) = gfDouble (gfMulLoop b n i a r) := by
  induction n generalizing i a r with
  | zero => rfl
  | succ n ih => simp only [gfMulLoop, ← ih, apply_ite gfDouble, gfDouble_xor]

theorem gfMul_xor_left (a a' b : Byte) : gfMul (a ^^^ a') b = gfMul a b ^^^ gfMul a' b :=
  gfMulLoop_xor b 8 0 a a' 0 0

theorem gfMul_gfDouble_left (a b : Byte) : gfMul (gfDouble a) b = gfDouble (gfMul a b) :=
  gfMulLoop_gfDouble b 8 0 a 0

@[simp] theorem gfMul_zero_right : ∀ a : Byte, gfMul a 0#8 = 0#8 := by decide +kernel

@[simp] theorem gfMul_one_left : ∀ a : Byte, gfMul 1#8 a = a := by decide +kernel

@[simp] theorem gfMul_one_right : ∀ a : Byte, gfMul a 1#8 = a := by decide +kernel

theorem gfMul_gfAlpha : ∀ a : Byte, gfMul a gfAlpha = gfDouble a := by decide +kernel

/-- What is closed under doubling and exclusive or is kept by the loop of R92. -/
theorem gfMulLoop_induction {P : Byte → Prop} (hdouble : ∀ a, P a → P (gfDouble a))
    (hxor : ∀ a b, P a → P b → P (a ^^^ b)) (b : Byte) (n i : Nat) {a r : Byte} (ha : P a) (hr : P r) :
    P (gfMulLoop b n i a r) := by
  induction n generalizing i a r with
  | zero => exact hr
  | succ n ih =>
    refine ih (i + 1) (hdouble a ha) ?_
    split
    · exact hxor r a hr ha
    · exact hr

/-- Every element is built from 0 and 1 by doubling and exclusive or: the loop of R92 builds `1 * a` that way. -/
theorem gf_induction {P : Byte → Prop} (hzero : P 0#8) (hone : P 1#8) (hdouble : ∀ a, P a → P (gfDouble a))
    (hxor : ∀ a b, P a → P b → P (a ^^^ b)) (a : Byte) : P a :=
  gfMul_one_left a ▸ gfMulLoop_induction hdouble hxor a 8 0 hone hzero

theorem gfMul_gfDouble_right (a b : Byte) : gfMul a (gfDouble b) = gfDouble (gfMul a b) := by
  induction a using gf_induction with
  | hzero => simp only [gfMul_zero_left]; rfl
  | hone => simp only [gfMul_one_left]
  | hdouble a ih => simp only [gfMul_gfDouble_left, ih]
  | hxor a a' ih ih' => simp only [gfMul_xor_left, gfDouble_xor, ih, ih']

/-! ### The powers of α (R93) -/

theorem gfExp_succ (i : Nat) : gfExp (i + 1) = gfDouble (gfExp i) := gfMul_gfAlpha _

theorem gfExp_add (i j : Nat) : gfExp (i + j) = gfMul (gfExp i) (gfExp j) := by
  induction j with
  | zero => exact (gfMul_one_right _).symm
  | succ j ih => rw [← Nat.add_assoc, gfExp_succ, gfExp_succ, ih, gfMul_gfDouble_right]

theorem gfExp_255 : gfExp 255 = 1 := by decide +kernel

/-- α has no smaller period than 255: it is primitive (R90). -/
theorem gfExp_ne_one : ∀ d < 254, gfExp (d + 1) ≠ 1 := by decide +kernel

theorem gfExp_add_255 (i : Nat) : gfExp (i + 255) = gfExp i := by
  rw [gfExp_add, gfExp_255]
  exact gfMul_one_right _

theorem gfExp_mod (i : Nat) : gfExp (i % 255) = gfExp i :=
  Function.Periodic.map_mod_nat gfExp_add_255 i

theorem gfExp_congr {i j : Nat} (h : i % 255 = j % 255) : gfExp i = gfExp j := by
  rw [← gfExp_mod i, h, gfExp_mod]

/-- Two equal powers `i < j < 255` would make `j - i` a period. -/
theorem gfExp_ne_of_lt {i j : Nat} (hij : i < j) (hj : j < 255) : gfExp i ≠ gfExp j := by
  intro h
  apply gfExp_ne_one (j - i - 1) (by omega)
  calc gfExp (j - i - 1 + 1)
      = gfExp (255 - i + j) := gfExp_congr (by omega)
    _ = gfExp (255 - i + i) := by rw [gfExp_add, ← h, ← gfExp_add]
    _ = 1 := by rw [Nat.sub_add_cancel (by omega), gfExp_255]

theorem gfExp_injOn : Set.InjOn gfExp (Finset.range 255) := by
  intro i hi j hj h
  simp only [Finset.coe_range, Set.mem_Iio] at hi hj
  rcases Nat.lt_trichotomy i j with hlt | heq | hgt
  · exact absurd h (gfExp_ne_of_lt hlt hj)
  · exact heq
  · exact absurd h.symm (gfExp_ne_of_lt hgt hi)

/-- The 255 powers are different and non-zero, and there are 255 non-zero elements. -/
theorem exists_gfExp_eq {a : Byte} (ha : a ≠ 0) : ∃ l < 255, gfExp l = a := by
  have hmaps : Set.MapsTo gfExp (Finset.range 255) (Finset.univ.erase (0 : Byte)) := fun i _ => by
    simpa using gfExp_ne_zero i
  have hcard : (Finset.univ.erase (0 : Byte)).card ≤ (Finset.range 255).card := by
    simp [Finset.card_erase_of_mem, ← FinEnum.card_eq_fintypeCard]
  obtain ⟨l, hl, rfl⟩ := Finset.surjOn_of_injOn_of_card_le gfExp hmaps gfExp_injOn hcard (by simpa using ha)
  exact ⟨l, by simpa using hl, rfl⟩

theorem gfLog_eq_some_iff (a : Byte) (l : Nat) : gfLog a = some l ↔ l < 255 ∧ gfExp l = a := by
  simp only [gfLog, List.find?_range_eq_some, decide_eq_true_eq, List.mem_range, Bool.not_eq_true',
    decide_eq_false_iff_not]
  constructor
  · rintro ⟨h, hl, -⟩
    exact ⟨hl, h⟩
  · rintro ⟨hl, rfl⟩
    exact ⟨rfl, hl, fun j hj => gfExp_ne_of_lt hj hl⟩

theorem gfLog_zero : gfLog 0 = none := by
  rw [Option.eq_none_iff_forall_ne_some]
  intro l h
  obtain ⟨-, hl⟩ := (gfLog_eq_some_iff 0 l).mp h
  exact gfExp_ne_zero l hl

/-! ### Powers and inverses through the exponent (R94, R95) -/

theorem gfPow_gfExp (l n : Nat) : gfPow (gfExp l) n = gfExp (l * n) := by
  induction n with
  | zero => rfl
  | succ n ih => rw [gfPow, ih, ← gfExp_add, Nat.mul_succ]

theorem gfSquares_gfExp (n l : Nat) : gfSquares n (gfExp l) = gfExp (l * (2 ^ (n + 1) - 2)) := by
  induction n generalizing l with
  | zero => rfl
  | succ n ih =>
    rw [gfSquares, ← gfExp_add, ih, ← gfExp_add]
    obtain ⟨k, hk⟩ := Nat.exists_eq_add_of_le' (Nat.le_self_pow (Nat.succ_ne_zero n) 2)
    have hk' : 2 ^ (n + 1 + 1) - 2 = 2 * k + 2 := by omega
    rw [hk, hk', Nat.add_sub_cancel]
    congr 1
    ring

theorem gfInv_gfExp (l : Nat) (h : gfExp l ≠ 0) : gfInv (gfExp l) h = gfExp (l * 254) := gfSquares_gfExp 7 l

theorem gfMul_gfInv (a : Byte) (h : a ≠ 0) : gfMul a (gfInv a h) = 1 := by
  obtain ⟨l, -, rfl⟩ := exists_gfExp_eq h
  rw [gfInv_gfExp, ← gfExp_add]
  exact gfExp_congr (j := 0) (by omega)

theorem eq_gfInv_of_gfMul_eq_one {a b : Byte} (h : a ≠ 0) (hab : gfMul a b = 1) : b = gfInv a h := by
  have hb : b ≠ 0 := by
    rintro rfl
    exact absurd (hab.symm.trans (gfMul_zero_right a)) (by decide)
  obtain ⟨l, -, rfl⟩ := exists_gfExp_eq h
  obtain ⟨m, -, rfl⟩ := exists_gfExp_eq hb
  calc gfExp m
      = gfExp (l * 254 + (l + m)) := gfExp_congr (by omega)
    _ = gfMul (gfExp (l * 254)) 1 := by rw [gfExp_add, gfExp_add l m, hab]
    _ = gfInv (gfExp l) h := by rw [gfInv_gfExp]; exact gfMul_one_right _

/-! ### The obligations -/

/-- Settles O33: both forms of the inverse are powers of α with exponents equal modulo 255. -/
theorem fieldInverseIsTheInverse : Obligations.FieldInverseIsTheInverse := by
  intro a h
  obtain ⟨l, hl, rfl⟩ := exists_gfExp_eq h
  have hpow : gfInv (gfExp l) h = gfPow (gfExp l) 254 := by rw [gfInv_gfExp, gfPow_gfExp]
  have hlog : gfInv (gfExp l) h = gfExp ((255 - l) % 255) := (gfInv_gfExp l h).trans (gfExp_congr (by omega))
  exact ⟨gfMul_gfInv _ h, fun b => eq_gfInv_of_gfMul_eq_one h, hpow,
    ⟨l, (gfLog_eq_some_iff _ l).mpr ⟨hl, rfl⟩, hlog⟩, fun c => rfl⟩

/-- Settles O34: the logarithm by `gfLog_eq_some_iff`, the powers by `gfPow_gfExp` and the period. -/
theorem fieldPowersGoThroughTheLogarithm : Obligations.FieldPowersGoThroughTheLogarithm := by
  refine ⟨fun a ha => ?_, gfLog_zero, fun n => (gfExp_mod n).symm, fun _ => rfl, fun n hn => ?_⟩
  · obtain ⟨l, hl, rfl⟩ := exists_gfExp_eq ha
    exact ⟨l, hl, (gfLog_eq_some_iff _ l).mpr ⟨hl, rfl⟩, rfl, fun n => by rw [gfPow_gfExp, gfExp_mod]⟩
  · obtain ⟨k, rfl⟩ := Nat.exists_eq_add_of_le' hn
    exact gfMul_zero_right (gfPow 0 k)

end Sys2Proof.Machine

namespace Sys2Proof.Machine

/-! PROOFS. Reed-Solomon decoding over any field: a set `E` of error positions with locators `x` and values `y`, its
syndromes, its locator polynomial and the numerators over it, and the shortest recurrence of the syndromes (R109 to
R113). Nothing here is about bytes; the codec's lists are tied to it in the next part. -/

open Polynomial

variable {F : Type} [Field F] {E : Finset ℕ} {x y : ℕ → F} {n : ℕ}

/-- A coefficient of a product, as a sum up to the degree of one factor. -/
theorem coeff_mul_eq_sum_range {p q : F[X]} {l k : ℕ} (hdeg : p.natDegree ≤ l) :
    (p * q).coeff k = ∑ i ∈ Finset.range (min k l + 1), p.coeff i * q.coeff (k - i) := by
  rw [coeff_mul, Finset.Nat.sum_antidiagonal_eq_sum_range_succ fun a b => p.coeff a * q.coeff b]
  refine (Finset.sum_subset (Finset.range_mono (by omega)) fun i hi hnot => ?_).symm
  simp only [Finset.mem_range] at hi hnot
  rw [coeff_eq_zero_of_natDegree_lt (by omega), zero_mul]

/-! ### Power sums, the locator and its numerators (R109, R110, R113) -/

/-- A combination of at most `n` different locators whose first `n` power sums vanish is trivial: Vandermonde. It is the
bound on the distance of codewords (R109). -/
theorem eq_zero_of_powerSums_eq_zero (hinj : Set.InjOn x E) (hcard : E.card ≤ n)
    (hsum : ∀ j < n, ∑ p ∈ E, y p * x p ^ j = 0) : ∀ p ∈ E, y p = 0 := by
  have hvanish := Matrix.eq_zero_of_forall_pow_sum_mul_pow_eq_zero
    (f := fun i => x (E.equivFin.symm i)) (v := fun i => y (E.equivFin.symm i))
    (fun i j h => E.equivFin.symm.injective (Subtype.ext (hinj (Subtype.prop _) (Subtype.prop _) h)))
    (fun j => by
      rw [Equiv.sum_comp E.equivFin.symm (fun p => y p * x p ^ (j : ℕ)),
        Finset.sum_coe_sort E fun p => y p * x p ^ (j : ℕ)]
      exact hsum j (j.isLt.trans_le hcard))
  intro p hp
  simpa using congrFun hvanish (E.equivFin ⟨p, hp⟩)

/-- The syndromes of R110 as a polynomial: `n` power sums. -/
noncomputable def syndromePoly (E : Finset ℕ) (x y : ℕ → F) (n : ℕ) : F[X] :=
  ∑ j ∈ Finset.range n, C (∑ p ∈ E, y p * x p ^ j) * X ^ j

/-- The error locator of R111. -/
noncomputable def errorLocator (E : Finset ℕ) (x : ℕ → F) : F[X] := ∏ p ∈ E, (1 - C (x p) * X)

/-- The numerator over the error locator of a sum of partial fractions with the values `c`. -/
noncomputable def locatorNumerator (E : Finset ℕ) (x c : ℕ → F) : F[X] :=
  ∑ p ∈ E, C (c p) * ∏ q ∈ E.erase p, (1 - C (x q) * X)

theorem coeff_syndromePoly (j : ℕ) :
    (syndromePoly E x y n).coeff j = if j < n then ∑ p ∈ E, y p * x p ^ j else 0 := by
  simp only [syndromePoly, finsetSum_coeff, coeff_C_mul_X_pow, Finset.sum_ite_eq, Finset.mem_range]

/-- The geometric series of each locator, cut at degree `n` (R113): below `x^n` the product is the numerator of the
error values. -/
theorem errorLocator_mul_syndromePoly :
    errorLocator E x * syndromePoly E x y n =
      locatorNumerator E x y - X ^ n * locatorNumerator E x (fun p => y p * x p ^ n) := by
  have hseries : syndromePoly E x y n = ∑ p ∈ E, C (y p) * ∑ j ∈ Finset.range n, (C (x p) * X) ^ j := by
    simp only [syndromePoly, map_sum, Finset.sum_mul, Finset.mul_sum]
    rw [Finset.sum_comm]
    refine Finset.sum_congr rfl fun p _ => Finset.sum_congr rfl fun j _ => ?_
    rw [mul_pow, C_mul, C_pow, mul_assoc]
  rw [hseries, locatorNumerator, locatorNumerator, Finset.mul_sum, Finset.mul_sum, ← Finset.sum_sub_distrib]
  refine Finset.sum_congr rfl fun p hp => ?_
  rw [errorLocator, ← Finset.mul_prod_erase E _ hp]
  have hgeom := mul_neg_geom_sum (C (x p) * X) n
  rw [mul_pow] at hgeom
  rw [C_mul, C_pow]
  linear_combination (C (y p) * ∏ q ∈ E.erase p, (1 - C (x q) * X)) * hgeom

theorem coeff_zero_errorLocator : (errorLocator E x).coeff 0 = 1 := by
  simp [errorLocator, coeff_zero_eq_eval_zero, eval_prod]

theorem natDegree_linearFactors_le (D : Finset ℕ) (x : ℕ → F) :
    (∏ p ∈ D, (1 - C (x p) * X)).natDegree ≤ D.card := by
  refine (natDegree_prod_le D _).trans ((Finset.sum_le_card_nsmul D _ 1 fun p _ => ?_).trans (by simp))
  compute_degree

theorem natDegree_errorLocator_le : (errorLocator E x).natDegree ≤ E.card := natDegree_linearFactors_le E x

theorem natDegree_errorLocator (hx : ∀ p ∈ E, x p ≠ 0) : (errorLocator E x).natDegree = E.card := by
  have hfactor : ∀ p ∈ E, (1 - C (x p) * X : F[X]).natDegree = 1 := fun p hp => by
    compute_degree!
    simpa using hx p hp
  rw [errorLocator, natDegree_prod, Finset.sum_congr rfl hfactor, Finset.card_eq_sum_ones]
  intro p hp h
  simpa [h] using hfactor p hp

theorem coeff_locatorNumerator_eq_zero (c : ℕ → F) {j : ℕ} (hj : E.card ≤ j) :
    (locatorNumerator E x c).coeff j = 0 := by
  rw [locatorNumerator, finsetSum_coeff]
  refine Finset.sum_eq_zero fun p hp => ?_
  have hpos : 0 < E.card := Finset.card_pos.mpr ⟨p, hp⟩
  have hdeg := natDegree_linearFactors_le (E.erase p) x
  rw [Finset.card_erase_of_mem hp] at hdeg
  rw [coeff_C_mul, coeff_eq_zero_of_natDegree_lt (by omega), mul_zero]

/-- Below degree `n` the product of the locator and the syndromes is the numerator of the error values (R113). -/
theorem coeff_errorLocator_mul_syndromePoly {j : ℕ} (hj : j < n) :
    (errorLocator E x * syndromePoly E x y n).coeff j = (locatorNumerator E x y).coeff j := by
  rw [errorLocator_mul_syndromePoly, coeff_sub, coeff_X_pow_mul', if_neg (by omega), sub_zero]

theorem derivative_errorLocator : derivative (errorLocator E x) = locatorNumerator E x (fun p => -x p) := by
  rw [errorLocator, derivative_prod_finset, locatorNumerator]
  refine Finset.sum_congr rfl fun p _ => ?_
  rw [derivative_sub, derivative_one, derivative_C_mul, derivative_X, mul_one, zero_sub, C_neg, mul_comm]

/-- At the inverse of a locator only the term of that locator is left of a numerator. -/
theorem eval_locatorNumerator (c : ℕ → F) {p : ℕ} (hp : p ∈ E) (hxp : x p ≠ 0) :
    (locatorNumerator E x c).eval (x p)⁻¹ = c p * ∏ q ∈ E.erase p, (1 - x q * (x p)⁻¹) := by
  rw [locatorNumerator, eval_finsetSum, Finset.sum_eq_single_of_mem p hp]
  · simp [eval_prod]
  · intro q _ hqp
    have hzero : (1 - C (x p) * X : F[X]).eval (x p)⁻¹ = 0 := by simp [hxp]
    rw [eval_mul, eval_prod, Finset.prod_eq_zero (Finset.mem_erase.mpr ⟨hqp.symm, hp⟩) hzero, mul_zero]

theorem one_sub_mul_inv_ne_zero (hinj : Set.InjOn x E) {p q : ℕ} (hp : p ∈ E) (hq : q ∈ E) (hqp : q ≠ p)
    (hxp : x p ≠ 0) : 1 - x q * (x p)⁻¹ ≠ 0 := by
  rw [sub_ne_zero, ← div_eq_mul_inv]
  exact fun h => hqp (hinj hq hp ((div_eq_one_iff_eq hxp).mp h.symm))

/-- The roots of the locator are the inverses of its locators (R112). -/
theorem eval_errorLocator_eq_zero_iff {p : ℕ} (hinj : Set.InjOn x (insert p E)) (hxp : x p ≠ 0) :
    (errorLocator E x).eval (x p)⁻¹ = 0 ↔ p ∈ E := by
  simp only [errorLocator, eval_prod, Finset.prod_eq_zero_iff, eval_sub, eval_one, eval_mul, eval_C, eval_X]
  constructor
  · rintro ⟨q, hq, hzero⟩
    rw [sub_eq_zero, ← div_eq_mul_inv, eq_comm, div_eq_one_iff_eq hxp] at hzero
    exact hinj (by simp [hq]) (by simp) hzero ▸ hq
  · exact fun hp => ⟨p, hp, by simp [hxp]⟩

/-- Forney's formula (R113), with the sign that is lost in characteristic 2. -/
theorem forney_formula (hinj : Set.InjOn x E) {p : ℕ} (hp : p ∈ E) (hxp : x p ≠ 0) :
    (derivative (errorLocator E x)).eval (x p)⁻¹ ≠ 0 ∧
      x p * ((locatorNumerator E x y).eval (x p)⁻¹ / (derivative (errorLocator E x)).eval (x p)⁻¹) = -y p := by
  have hprod : ∏ q ∈ E.erase p, (1 - x q * (x p)⁻¹) ≠ 0 := Finset.prod_ne_zero_iff.mpr fun q hq =>
    one_sub_mul_inv_ne_zero hinj hp (Finset.mem_of_mem_erase hq) (Finset.ne_of_mem_erase hq) hxp
  rw [derivative_errorLocator, eval_locatorNumerator _ hp hxp, eval_locatorNumerator _ hp hxp]
  refine ⟨mul_ne_zero (neg_ne_zero.mpr hxp) hprod, ?_⟩
  rw [mul_div_mul_right _ _ hprod]
  field_simp

/-! ### Recurrences of a sequence (R111) -/

/-- `p` is a recurrence of length `l` for the coefficients of `u` up to the `k`-th. -/
def Annihilates (u p : F[X]) (l k : ℕ) : Prop :=
  p.natDegree ≤ l ∧ ∀ j, l < j → j ≤ k → (p * u).coeff j = 0

/-- A coefficient of a product, when the coefficients of one factor vanish in the window that the other reaches. -/
theorem coeff_mul_of_window_eq_zero {p q : F[X]} {a k : ℕ} (hdeg : p.natDegree ≤ a)
    (hq : ∀ j, k - a ≤ j → j < k → q.coeff j = 0) : (p * q).coeff k = p.coeff 0 * q.coeff k := by
  rw [coeff_mul, Finset.sum_eq_single_of_mem (0, k) (by simp)]
  rintro ⟨i, j⟩ hij hne
  obtain rfl : i + j = k := by simpa using hij
  have hi : i ≠ 0 := by
    rintro rfl
    simp at hne
  by_cases hia : i ≤ a
  · simp [hq j (by omega) (by omega)]
  · simp [coeff_eq_zero_of_natDegree_lt (hdeg.trans_lt (not_le.mp hia))]

theorem Annihilates.X_mul {u p : F[X]} {l k : ℕ} (h : Annihilates u p l k) : Annihilates u (X * p) (l + 1) (k + 1) := by
  obtain ⟨hdeg, hzero⟩ := h
  refine ⟨(natDegree_mul_le_of_le natDegree_X_le hdeg).trans (by omega), fun j hlj hjk => ?_⟩
  obtain ⟨i, rfl⟩ := Nat.exists_eq_add_of_le' (Nat.one_le_of_lt hlj)
  rw [mul_assoc, coeff_X_mul]
  exact hzero i (by omega) (by omega)

/-- Two recurrences whose discrepancies cancel give one that goes on for another symbol (R111). -/
theorem Annihilates.add_C_mul {u p q : F[X]} {l l' m k : ℕ} {c : F} (hp : Annihilates u p l k)
    (hq : Annihilates u q l' k) (hl : l ≤ m) (hl' : l' ≤ m)
    (hcancel : (p * u).coeff (k + 1) + c * (q * u).coeff (k + 1) = 0) : Annihilates u (p + C c * q) m (k + 1) := by
  obtain ⟨hpdeg, hpzero⟩ := hp
  obtain ⟨hqdeg, hqzero⟩ := hq
  refine ⟨natDegree_add_le_of_degree_le (hpdeg.trans hl) ((natDegree_C_mul_le c q).trans (hqdeg.trans hl')),
    fun j hmj hjk => ?_⟩
  rw [add_mul, coeff_add, mul_assoc, coeff_C_mul]
  obtain rfl | hj := Nat.eq_or_lt_of_le hjk
  · exact hcancel
  · rw [hpzero j (by omega) (by omega), hqzero j (by omega) (by omega), mul_zero, add_zero]

theorem Annihilates.succ {u p : F[X]} {l k : ℕ} (hp : Annihilates u p l k) (hd : (p * u).coeff (k + 1) = 0) :
    Annihilates u p l (k + 1) := by
  simpa using hp.add_C_mul (c := 0) hp le_rfl le_rfl (by simpa using hd)

/-- Massey's bound: when a recurrence of length `l` fails at a symbol, one that also holds there, of length `v`, has
`k + 1 ≤ l + v`. Otherwise the product of the two with `u` has that coefficient 0 and not 0. -/
theorem Annihilates.le_add_of_coeff_ne_zero {u p q : F[X]} {l v k : ℕ} (hp : Annihilates u p l k)
    (hd : (p * u).coeff (k + 1) ≠ 0) (hq : Annihilates u q v (k + 1)) (hq0 : q.coeff 0 ≠ 0) : k + 1 ≤ l + v := by
  obtain ⟨hpdeg, hpzero⟩ := hp
  obtain ⟨hqdeg, hqzero⟩ := hq
  by_contra hlt
  have hleft : (q * (p * u)).coeff (k + 1) = q.coeff 0 * (p * u).coeff (k + 1) :=
    coeff_mul_of_window_eq_zero hqdeg fun j _ _ => hpzero j (by omega) (by omega)
  have hright : (p * (q * u)).coeff (k + 1) = p.coeff 0 * (q * u).coeff (k + 1) :=
    coeff_mul_of_window_eq_zero hpdeg fun j _ _ => hqzero j (by omega) (by omega)
  rw [hqzero (k + 1) (by omega) le_rfl, mul_zero, mul_left_comm, hleft] at hright
  exact mul_ne_zero hq0 hd hright

theorem Annihilates.mono {u p : F[X]} {l k k' : ℕ} (h : Annihilates u p l k) (hk : k' ≤ k) : Annihilates u p l k' :=
  ⟨h.1, fun j hlj hjk => h.2 j hlj (hjk.trans hk)⟩

/-! ### The recurrence of the syndromes is the error locator (R111) -/

/-- With a leading 1 before the syndromes, a recurrence is one of the syndromes from the place where its degree ends. -/
theorem coeff_succ_mul_one_add_X_mul {p : F[X]} (s : F[X]) {j : ℕ} (hdeg : p.natDegree ≤ j) :
    (p * (1 + X * s)).coeff (j + 1) = (p * s).coeff j := by
  rw [mul_add, mul_one, coeff_add, coeff_eq_zero_of_natDegree_lt (Nat.lt_succ_of_le hdeg), zero_add, mul_left_comm,
    coeff_X_mul]

theorem errorLocator_annihilates :
    Annihilates (1 + X * syndromePoly E x y n) (errorLocator E x) E.card n := by
  refine ⟨natDegree_errorLocator_le, fun j hlj hjk => ?_⟩
  obtain ⟨i, rfl⟩ := Nat.exists_eq_add_of_le' (Nat.one_le_of_lt hlj)
  rw [coeff_succ_mul_one_add_X_mul _ (natDegree_errorLocator_le.trans (by omega)),
    coeff_errorLocator_mul_syndromePoly (by omega), coeff_locatorNumerator_eq_zero _ (by omega)]

theorem coeff_mul_syndromePoly (hx : ∀ q ∈ E, x q ≠ 0) {p : F[X]} {j : ℕ} (hdeg : p.natDegree ≤ j) (hj : j < n) :
    (p * syndromePoly E x y n).coeff j = ∑ q ∈ E, y q * x q ^ j * p.eval (x q)⁻¹ := by
  rw [coeff_mul_eq_sum_range hdeg, min_self]
  simp only [eval_eq_sum_range' (Nat.lt_succ_of_le hdeg), Finset.mul_sum]
  rw [Finset.sum_comm]
  refine Finset.sum_congr rfl fun i hi => ?_
  have hij : i ≤ j := by simpa [Nat.lt_succ_iff] using hi
  rw [coeff_syndromePoly, if_pos (by omega), Finset.mul_sum]
  refine Finset.sum_congr rfl fun q hq => ?_
  rw [pow_sub₀ _ (hx q hq) hij, inv_pow]
  ring

/-- A recurrence of the syndromes that is no longer than the number of errors is the locator, when `2v` syndromes are
known: its values at the inverse locators are the weights of vanishing power sums (R111). -/
theorem Annihilates.eq_errorLocator (hinj : Set.InjOn x E) (hx : ∀ q ∈ E, x q ≠ 0) (hy : ∀ q ∈ E, y q ≠ 0) {p : F[X]}
    {l : ℕ} (hp : Annihilates (1 + X * syndromePoly E x y n) p l n) (hp0 : p.coeff 0 = 1) (hl : l ≤ E.card)
    (hn : 2 * E.card ≤ n) : p = errorLocator E x ∧ l = E.card := by
  obtain ⟨hdeg, hzero⟩ := hp
  have hroot : ∀ q ∈ E, p.eval (x q)⁻¹ = 0 := by
    have hweights : ∀ q ∈ E, y q * x q ^ l * p.eval (x q)⁻¹ = 0 := by
      refine eq_zero_of_powerSums_eq_zero (n := n - l) hinj (by omega) fun j hj => ?_
      rw [← hzero (l + j + 1) (by omega) (by omega), coeff_succ_mul_one_add_X_mul _ (by omega),
        coeff_mul_syndromePoly hx (by omega) (by omega)]
      exact Finset.sum_congr rfl fun q _ => by ring
    intro q hq
    simpa [hx q hq, hy q hq] using hweights q hq
  have heq : p = errorLocator E x := by
    classical
    have hinj' : Set.InjOn (fun q => (x q)⁻¹) E := fun a ha b hb h => hinj ha hb (inv_injective h)
    have hnotin : (0 : F) ∉ E.image fun q => (x q)⁻¹ := by simpa using hx
    refine eq_of_natDegree_lt_card_of_eval_eq' _ _ (insert 0 (E.image fun q => (x q)⁻¹)) (fun a ha => ?_) ?_
    · simp only [Finset.mem_insert, Finset.mem_image] at ha
      obtain rfl | ⟨q, hq, rfl⟩ := ha
      · rw [← coeff_zero_eq_eval_zero, ← coeff_zero_eq_eval_zero, hp0, coeff_zero_errorLocator]
      · rw [hroot q hq, (eval_errorLocator_eq_zero_iff (by simpa [hq] using hinj) (hx q hq)).mpr hq]
    · rw [Finset.card_insert_of_notMem hnotin, Finset.card_image_of_injOn hinj', natDegree_errorLocator hx]
      omega
  exact ⟨heq, le_antisymm hl (natDegree_errorLocator hx ▸ heq ▸ hdeg)⟩

end Sys2Proof.Machine

namespace Sys2Proof.Machine

/-! PROOFS. The symbols as a field, and the codec's lists as polynomials over it: Horner's rule, sums, the derivative
and the locator list (R90 to R96, R111 to R113). -/

open Polynomial

/-! ### The field of the symbols (R90 to R94) -/

theorem gfMul_xor_right (a b b' : Byte) : gfMul a (b ^^^ b') = gfMul a b ^^^ gfMul a b' := by
  induction a using gf_induction with
  | hzero => simp only [gfMul_zero_left]; rfl
  | hone => simp only [gfMul_one_left]
  | hdouble a ih => simp only [gfMul_gfDouble_left, ih, gfDouble_xor]
  | hxor a a' ih ih' => simp only [gfMul_xor_left, ih, ih']; ac_rfl

theorem gfMul_comm (a b : Byte) : gfMul a b = gfMul b a := by
  induction a using gf_induction with
  | hzero => rw [gfMul_zero_left, gfMul_zero_right]
  | hone => rw [gfMul_one_left, gfMul_one_right]
  | hdouble a ih => rw [gfMul_gfDouble_left, gfMul_gfDouble_right, ih]
  | hxor a a' ih ih' => rw [gfMul_xor_left, gfMul_xor_right, ih, ih']

theorem gfMul_assoc (a b c : Byte) : gfMul (gfMul a b) c = gfMul a (gfMul b c) := by
  induction a using gf_induction with
  | hzero => simp only [gfMul_zero_left]
  | hone => simp only [gfMul_one_left]
  | hdouble a ih => simp only [gfMul_gfDouble_left, ih]
  | hxor a a' ih ih' => simp only [gfMul_xor_left, ih, ih']

/-- The symbols of R90 are the field `F`: the operations of the model are those of the field. -/
structure IsSymbolField {F : Type} [Field F] (ι : Byte → F) : Prop where
  map_zero : ι 0#8 = 0
  map_one : ι 1#8 = 1
  map_xor : ∀ a b, ι (a ^^^ b) = ι a + ι b
  map_gfMul : ∀ a b, ι (gfMul a b) = ι a * ι b

/-- A byte as an element of the field: `BitVec 8` itself carries the arithmetic modulo 256. -/
@[ext] structure GfSymbol where
  byte : Byte

/-- The field of the symbols: exclusive or, `gfMul` and `gfInv` (R91, R92, R94). -/
abbrev gfSymbolField : Field GfSymbol :=
  letI : Zero GfSymbol := ⟨⟨0#8⟩⟩
  letI : Add GfSymbol := ⟨fun a b => ⟨a.byte ^^^ b.byte⟩⟩
  letI : Neg GfSymbol := ⟨id⟩
  letI : Mul GfSymbol := ⟨fun a b => ⟨gfMul a.byte b.byte⟩⟩
  { one := ⟨1#8⟩
    inv a := if h : a.byte = 0#8 then ⟨0#8⟩ else ⟨gfInv a.byte h⟩
    add_assoc a b c := GfSymbol.ext (BitVec.xor_assoc a.byte b.byte c.byte)
    zero_add _ := GfSymbol.ext BitVec.zero_xor
    add_zero _ := GfSymbol.ext BitVec.xor_zero
    add_comm a b := GfSymbol.ext (BitVec.xor_comm a.byte b.byte)
    neg_add_cancel _ := GfSymbol.ext BitVec.xor_self
    nsmul := nsmulRec
    zsmul := zsmulRec
    mul_assoc a b c := GfSymbol.ext (gfMul_assoc a.byte b.byte c.byte)
    one_mul a := GfSymbol.ext (gfMul_one_left a.byte)
    mul_one a := GfSymbol.ext (gfMul_one_right a.byte)
    zero_mul a := GfSymbol.ext (gfMul_zero_left a.byte)
    mul_zero a := congrArg GfSymbol.mk (gfMul_zero_right a.byte)
    left_distrib a b c := GfSymbol.ext (gfMul_xor_right a.byte b.byte c.byte)
    right_distrib a b c := GfSymbol.ext (gfMul_xor_left a.byte b.byte c.byte)
    mul_comm a b := GfSymbol.ext (gfMul_comm a.byte b.byte)
    exists_pair_ne := ⟨⟨0#8⟩, ⟨1#8⟩, fun h => absurd (congrArg GfSymbol.byte h) (by decide)⟩
    mul_inv_cancel a ha := by
      have hbyte : a.byte ≠ 0#8 := fun h => ha (GfSymbol.ext h)
      exact (congrArg (a * ·) (dif_neg hbyte)).trans (GfSymbol.ext (gfMul_gfInv a.byte hbyte))
    inv_zero := dif_pos rfl
    nnqsmul := _
    nnqsmul_def _ _ := rfl
    qsmul := _
    qsmul_def _ _ := rfl }

/-- There is such a field, so what holds for every `IsSymbolField` holds of the model. -/
theorem exists_isSymbolField : ∃ (F : Type) (_ : Field F) (ι : Byte → F), IsSymbolField ι :=
  ⟨GfSymbol, gfSymbolField, GfSymbol.mk, @IsSymbolField.mk _ gfSymbolField _ rfl rfl (fun _ _ => rfl) fun _ _ => rfl⟩

variable {F : Type} [Field F] {ι : Byte → F}

theorem IsSymbolField.add_self (hι : IsSymbolField ι) (a : F) : a + a = 0 := by
  have htwo : (1 : F) + 1 = 0 := by rw [← hι.map_one, ← hι.map_xor, BitVec.xor_self, hι.map_zero]
  rw [← mul_one a, ← mul_add, htwo, mul_zero]

theorem IsSymbolField.neg_eq (hι : IsSymbolField ι) (a : F) : -a = a :=
  neg_eq_of_add_eq_zero_left (hι.add_self a)

theorem IsSymbolField.map_gfInv (hι : IsSymbolField ι) (a : Byte) (h : a ≠ 0) : ι (gfInv a h) = (ι a)⁻¹ := by
  refine eq_inv_of_mul_eq_one_right ?_
  rw [← hι.map_gfMul, gfMul_gfInv]
  exact hι.map_one

theorem IsSymbolField.map_gfDiv (hι : IsSymbolField ι) (a b : Byte) (h : b ≠ 0) : ι (gfDiv a b h) = ι a / ι b := by
  rw [gfDiv, hι.map_gfMul, hι.map_gfInv, div_eq_mul_inv]

theorem IsSymbolField.eq_zero_iff (hι : IsSymbolField ι) (a : Byte) : ι a = 0 ↔ a = 0 := by
  refine ⟨fun h => by_contra fun ha => ?_, fun h => h ▸ hι.map_zero⟩
  have hone := hι.map_gfMul a (gfInv a ha)
  rw [h, zero_mul, gfMul_gfInv] at hone
  exact one_ne_zero (hι.map_one.symm.trans hone)

theorem IsSymbolField.injective (hι : IsSymbolField ι) : Function.Injective ι := fun a b h => by
  have hxor : ι (a ^^^ b) = 0 := by rw [hι.map_xor, h, hι.add_self]
  exact BitVec.xor_eq_zero_iff.mp ((hι.eq_zero_iff _).mp hxor)

theorem IsSymbolField.map_gfExp_mul (hι : IsSymbolField ι) (i j : ℕ) : ι (gfExp (i * j)) = ι (gfExp i) ^ j := by
  induction j with
  | zero => exact hι.map_one.trans (pow_zero _).symm
  | succ j ih => rw [Nat.mul_succ, gfExp_add, hι.map_gfMul, ih, pow_succ]

theorem IsSymbolField.map_gfExp_neg (hι : IsSymbolField ι) {e : ℕ} (he : e ≤ 255) :
    ι (gfExp ((255 - e) % 255)) = (ι (gfExp e))⁻¹ := by
  refine eq_inv_of_mul_eq_one_left ?_
  rw [gfExp_mod, ← hι.map_gfMul, ← gfExp_add, Nat.sub_add_cancel he, gfExp_255]
  exact hι.map_one

/-! ### Sums and Horner's rule (R96) -/

theorem IsSymbolField.map_foldl_xor (hι : IsSymbolField ι) (f : ℕ → Byte) (a : Byte) (n : ℕ) :
    ι ((List.range n).foldl (fun d i => d ^^^ f i) a) = ι a + ∑ i ∈ Finset.range n, ι (f i) := by
  induction n with
  | zero => simp
  | succ n ih =>
    rw [List.range_succ, List.foldl_append, List.foldl_cons, List.foldl_nil, hι.map_xor, ih, Finset.sum_range_succ,
      add_assoc]

theorem IsSymbolField.map_polyEval (hι : IsSymbolField ι) (c : List Byte) (x : Byte) :
    ι (polyEval c x) = ∑ p ∈ Finset.range c.length, ι (c.getD p 0) * ι x ^ (c.length - 1 - p) := by
  induction c using List.reverseRecOn with
  | nil => exact hι.map_zero
  | append_singleton c b ih =>
    rw [polyEval_concat, hι.map_xor, hι.map_gfMul, ih, List.length_append, List.length_singleton,
      Finset.sum_range_succ, Finset.sum_mul]
    congr 1
    · refine Finset.sum_congr rfl fun p hp => ?_
      have hp : p < c.length := by simpa using hp
      have hexp : c.length + 1 - 1 - p = c.length - 1 - p + 1 := by omega
      rw [List.getD_append _ _ _ _ hp, hexp, pow_succ, mul_assoc]
    · simp

/-! ### Sequences written lowest degree first (R111) -/

/-- The polynomial of a sequence written lowest degree first. -/
noncomputable def lowPoly (ι : Byte → F) : List Byte → F[X]
  | [] => 0
  | a :: l => C (ι a) + X * lowPoly ι l

theorem coeff_lowPoly (hι : IsSymbolField ι) (l : List Byte) (i : ℕ) : (lowPoly ι l).coeff i = ι (l.getD i 0) := by
  induction l generalizing i with
  | nil => exact hι.map_zero.symm
  | cons a l ih =>
    cases i with
    | zero => simp [lowPoly]
    | succ i => simp [lowPoly, coeff_X_mul, coeff_C_succ, ih]

theorem IsSymbolField.map_polyEvalLow (hι : IsSymbolField ι) (l : List Byte) (x : Byte) :
    ι (polyEvalLow l x) = (lowPoly ι l).eval (ι x) := by
  induction l with
  | nil => exact hι.map_zero.trans eval_zero.symm
  | cons a l ih =>
    have hstep : polyEvalLow (a :: l) x = gfMul (polyEvalLow l x) x ^^^ a := rfl
    rw [hstep, hι.map_xor, hι.map_gfMul, ih]
    simp [lowPoly, mul_comm, add_comm]

theorem lowPoly_polyAddLow (hι : IsSymbolField ι) (l l' : List Byte) :
    lowPoly ι (polyAddLow l l') = lowPoly ι l + lowPoly ι l' := by
  induction l generalizing l' with
  | nil => simp [polyAddLow, lowPoly]
  | cons a l ih =>
    cases l' with
    | nil => simp [polyAddLow, lowPoly]
    | cons b l' =>
      rw [polyAddLow, lowPoly, lowPoly, lowPoly, ih, hι.map_xor, C_add]
      ring

theorem lowPoly_map_gfMul (hι : IsSymbolField ι) (c : Byte) (l : List Byte) :
    lowPoly ι (l.map (gfMul c)) = C (ι c) * lowPoly ι l := by
  induction l with
  | nil => simp [lowPoly]
  | cons a l ih =>
    rw [List.map_cons, lowPoly, lowPoly, ih, hι.map_gfMul, C_mul]
    ring

theorem lowPoly_replicate_zero_append (hι : IsSymbolField ι) (m : ℕ) (l : List Byte) :
    lowPoly ι (List.replicate m 0 ++ l) = X ^ m * lowPoly ι l := by
  induction m with
  | zero => simp
  | succ m ih =>
    rw [List.replicate_succ, List.cons_append, lowPoly, ih, (hι.eq_zero_iff _).mpr rfl, C_0, zero_add, pow_succ',
      mul_assoc]

theorem dropTrailingZeros_cons (a : Byte) (l : List Byte) :
    dropTrailingZeros (a :: l) = if dropTrailingZeros l = [] ∧ a = 0 then [] else a :: dropTrailingZeros l := rfl

theorem lowPoly_dropTrailingZeros (hι : IsSymbolField ι) (l : List Byte) :
    lowPoly ι (dropTrailingZeros l) = lowPoly ι l := by
  induction l with
  | nil => rfl
  | cons a l ih =>
    rw [dropTrailingZeros_cons, lowPoly, ← ih]
    split
    · rename_i h
      simp [h, lowPoly, hι.map_zero]
    · rfl

theorem getLast_dropTrailingZeros_ne_zero (l : List Byte) (h : dropTrailingZeros l ≠ []) :
    (dropTrailingZeros l).getLast h ≠ 0 := by
  induction l with
  | nil => exact absurd rfl h
  | cons a l ih =>
    simp only [dropTrailingZeros_cons] at h ⊢
    split at h
    · exact absurd rfl h
    · rename_i hcase
      simp only [if_neg hcase]
      by_cases hl : dropTrailingZeros l = []
      · simpa [hl] using hcase
      · rw [List.getLast_cons hl]
        exact ih hl

theorem lowPoly_trimLow (hι : IsSymbolField ι) (l : List Byte) : lowPoly ι (trimLow l) = lowPoly ι l := by
  cases l with
  | nil => rfl
  | cons a l => rw [trimLow, lowPoly, lowPoly, lowPoly_dropTrailingZeros hι]

theorem natDegree_lowPoly_le (hι : IsSymbolField ι) (l : List Byte) : (lowPoly ι l).natDegree ≤ l.length - 1 :=
  natDegree_le_iff_coeff_eq_zero.mpr fun i hi => by
    rw [coeff_lowPoly hι, List.getD_eq_default _ _ (by omega)]
    exact hι.map_zero

/-- A trimmed sequence is as long as its degree says (R111). -/
theorem length_trimLow_sub_one (hι : IsSymbolField ι) (l : List Byte) :
    (trimLow l).length - 1 = (lowPoly ι l).natDegree := by
  rw [← lowPoly_trimLow hι]
  cases l with
  | nil => simp [trimLow, lowPoly]
  | cons a l =>
    by_cases hl : dropTrailingZeros l = []
    · simp [trimLow, hl, lowPoly]
    · refine (natDegree_eq_of_le_of_coeff_ne_zero (natDegree_lowPoly_le hι _) ?_).symm
      have hlast := getLast_dropTrailingZeros_ne_zero l hl
      rw [← List.getLast_cons (a := a) hl, List.getLast_eq_getElem] at hlast
      rw [coeff_lowPoly hι, Ne, hι.eq_zero_iff]
      simpa [trimLow] using hlast

/-- The odd-degree terms are the derivative in characteristic 2 (R113). -/
theorem lowPoly_formalDerivative (hι : IsSymbolField ι) (l : List Byte) :
    lowPoly ι (formalDerivative l) = derivative (lowPoly ι l) := by
  ext j
  rw [coeff_derivative, coeff_lowPoly hι, coeff_lowPoly hι]
  by_cases hj : j < l.length - 1
  · have hcoeff : (formalDerivative l).getD j 0 = if j % 2 = 0 then l.getD (j + 1) 0 else 0 := by
      simp [formalDerivative, hj]
    rw [hcoeff]
    have htwice : ∀ i : ℕ, ((2 * i : ℕ) : F) = 0 := fun i => by rw [two_mul, Nat.cast_add, hι.add_self]
    obtain ⟨i, rfl | rfl⟩ := j.even_or_odd'
    · rw [if_pos (by omega), htwice, zero_add, mul_one]
    · rw [if_neg (by omega), ← Nat.cast_succ, Nat.succ_eq_add_one, show 2 * i + 1 + 1 = 2 * (i + 1) by ring, htwice,
        mul_zero]
      exact hι.map_zero
  · rw [List.getD_eq_default _ _ (by simpa [formalDerivative] using hj), List.getD_eq_default _ _ (by omega)]
    simp [hι.map_zero]

end Sys2Proof.Machine

namespace Sys2Proof.Machine

/-! PROOFS. The distance of the code: where two words differ, what their syndromes say of it, and the bound on the
distance of codewords (R105, R108 to R110). -/

section

variable {F : Type} [Field F] {ι : Byte → F}

/-! ### Where two words differ (R108) -/

/-- The indices at which two words of the length of `r` differ. -/
def errorPositions (c r : List Byte) : Finset ℕ := {p ∈ Finset.range r.length | c.getD p 0 ≠ r.getD p 0}

/-- The difference of two words at an index, in the field. -/
def errorValue (ι : Byte → F) (c r : List Byte) (p : ℕ) : F := ι (c.getD p 0 ^^^ r.getD p 0)

/-- The locator of an index of an `n`-symbol word (R110). -/
def symbolLocator (ι : Byte → F) (n p : ℕ) : F := ι (gfExp (n - 1 - p))

theorem mem_errorPositions_iff {c r : List Byte} {p : ℕ} :
    p ∈ errorPositions c r ↔ p < r.length ∧ c.getD p 0 ≠ r.getD p 0 := by
  simp [errorPositions]

theorem card_errorPositions {c r : List Byte} (hlen : c.length = r.length) :
    (errorPositions c r).card = symbolDistance c r := by
  rw [errorPositions, Finset.card_filter]
  induction c generalizing r with
  | nil =>
    obtain rfl : r = [] := List.length_eq_zero_iff.mp hlen.symm
    rfl
  | cons a c ih =>
    cases r with
    | nil => cases hlen
    | cons b r =>
      rw [List.length_cons, Finset.sum_range_succ', symbolDistance, ← ih (Nat.succ.inj hlen), add_comm]
      simp

theorem errorPositions_subset_union (c c' r : List Byte) (hlen : c'.length = r.length) :
    errorPositions c c' ⊆ errorPositions c r ∪ errorPositions c' r := by
  intro p hp
  simp only [Finset.mem_union, mem_errorPositions_iff, hlen] at hp ⊢
  obtain ⟨hlt, hne⟩ := hp
  by_cases hc : c.getD p 0 = r.getD p 0
  · exact .inr ⟨hlt, fun hc' => hne (hc.trans hc'.symm)⟩
  · exact .inl ⟨hlt, hc⟩

theorem symbolDistance_triangle {c c' r : List Byte} (hc : c.length = r.length) (hc' : c'.length = r.length) :
    symbolDistance c c' ≤ symbolDistance c r + symbolDistance c' r := by
  rw [← card_errorPositions (hc.trans hc'.symm), ← card_errorPositions hc, ← card_errorPositions hc']
  exact (Finset.card_le_card (errorPositions_subset_union c c' r hc')).trans (Finset.card_union_le _ _)

theorem symbolDistance_self (r : List Byte) : symbolDistance r r = 0 := by
  rw [← card_errorPositions rfl]
  simp [errorPositions]

theorem symbolDistance_set_le (c r : List Byte) (p : ℕ) (v : Byte) :
    symbolDistance (c.set p v) r ≤ symbolDistance c r + 1 := by
  induction c generalizing r p with
  | nil => simp [symbolDistance]
  | cons a c ih =>
    cases r with
    | nil => cases p <;> simp [symbolDistance]
    | cons b r =>
      cases p with
      | zero =>
        simp only [List.set_cons_zero, symbolDistance]
        split <;> omega
      | succ p =>
        have := ih r p
        simp only [List.set_cons_succ, symbolDistance]
        omega

theorem eq_of_getD_eq {c r : List Byte} (hlen : c.length = r.length) (h : ∀ p < r.length, c.getD p 0 = r.getD p 0) :
    c = r :=
  List.ext_getElem hlen fun p hc hr => by simpa [hc, hr] using h p hr

/-! ### Locators and syndromes of a difference (R110) -/

theorem symbolLocator_ne_zero (hι : IsSymbolField ι) (n p : ℕ) : symbolLocator ι n p ≠ 0 :=
  fun h => gfExp_ne_zero _ ((hι.eq_zero_iff _).mp h)

theorem symbolLocator_injOn (hι : IsSymbolField ι) {n : ℕ} (hn : n ≤ 255) :
    Set.InjOn (symbolLocator ι n) (Finset.range n) := by
  intro p hp q hq h
  simp only [Finset.coe_range, Set.mem_Iio] at hp hq
  have hexp := gfExp_injOn (by simp; omega) (by simp; omega) (hι.injective h)
  omega

theorem errorPositions_subset_range (c r : List Byte) : errorPositions c r ⊆ Finset.range r.length :=
  Finset.filter_subset _ _

theorem symbolLocator_injOn_errorPositions (hι : IsSymbolField ι) (c : List Byte) {r : List Byte}
    (hr : r.length ≤ 255) : Set.InjOn (symbolLocator ι r.length) (errorPositions c r) :=
  (symbolLocator_injOn hι hr).mono (by exact_mod_cast errorPositions_subset_range c r)

theorem errorValue_ne_zero (hι : IsSymbolField ι) {c r : List Byte} {p : ℕ} (hp : p ∈ errorPositions c r) :
    errorValue ι c r p ≠ 0 := fun h =>
  (mem_errorPositions_iff.mp hp).2 (BitVec.xor_eq_zero_iff.mp ((hι.eq_zero_iff _).mp h))

/-- The power sums of the difference of two words are the differences of their syndromes (R110). -/
theorem powerSum_errorValue (hι : IsSymbolField ι) {c r : List Byte} (hlen : c.length = r.length) (j : ℕ) :
    ∑ p ∈ errorPositions c r, errorValue ι c r p * symbolLocator ι r.length p ^ j =
      ι (polyEval c (gfExp j)) + ι (polyEval r (gfExp j)) := by
  have hall : ∑ p ∈ errorPositions c r, errorValue ι c r p * symbolLocator ι r.length p ^ j =
      ∑ p ∈ Finset.range r.length, errorValue ι c r p * symbolLocator ι r.length p ^ j := by
    refine Finset.sum_subset (errorPositions_subset_range c r) fun p hp hnot => ?_
    have heq : c.getD p 0 = r.getD p 0 := by
      by_contra hne
      exact hnot (mem_errorPositions_iff.mpr ⟨by simpa using hp, hne⟩)
    rw [errorValue, heq, BitVec.xor_self, hι.map_zero, zero_mul]
  rw [hall, hι.map_polyEval, hι.map_polyEval, hlen, ← Finset.sum_add_distrib]
  refine Finset.sum_congr rfl fun p _ => ?_
  rw [errorValue, symbolLocator, hι.map_xor, ← hι.map_gfExp_mul, ← hι.map_gfExp_mul, Nat.mul_comm, add_mul]

end

/-! ### The bound (R109) -/

/-- The difference of two codewords has `nsym` vanishing power sums, so it has more than `nsym` terms or none. -/
theorem lt_symbolDistance_of_isCodeword {nsym : ℕ} {c c' : List Byte} (hlen : c.length = c'.length)
    (hshort : c.length ≤ 255) (hc : isCodeword nsym c = true) (hc' : isCodeword nsym c' = true) (hne : c ≠ c') :
    nsym < symbolDistance c c' := by
  obtain ⟨F, _, ι, hι⟩ := exists_isSymbolField
  rw [isCodeword_iff] at hc hc'
  rw [← card_errorPositions hlen]
  by_contra hcard
  have hvanish := eq_zero_of_powerSums_eq_zero (y := errorValue ι c c')
    (symbolLocator_injOn_errorPositions hι c (hlen ▸ hshort)) (not_lt.mp hcard) fun j hj => by
      rw [powerSum_errorValue hι hlen, hc j hj, hc' j hj]
      exact hι.add_self _
  refine hne (eq_of_getD_eq hlen fun p hp => by_contra fun hdiff => ?_)
  have hmem := mem_errorPositions_iff.mpr ⟨hp, hdiff⟩
  exact errorValue_ne_zero hι hmem (hvanish p hmem)

theorem CloseCodeword.unique {p : Params} {r c c' : List Byte} (hr : r.length ≤ 255) (h : CloseCodeword p r c)
    (h' : CloseCodeword p r c') : c = c' := by
  obtain ⟨hlen, hc, hdist⟩ := h
  obtain ⟨hlen', hc', hdist'⟩ := h'
  have ht : p.t = p.nsym / 2 := rfl
  by_contra hne
  have hfar := lt_symbolDistance_of_isCodeword (hlen.trans hlen'.symm) (hlen ▸ hr) hc hc' hne
  have htri := symbolDistance_triangle hlen hlen'
  omega

/-- Settles O37: the bound on the distance, and `2T ≤ NSYM`. -/
theorem codewordsAreFarApart : Obligations.CodewordsAreFarApart :=
  ⟨fun _ _ _ hlen hshort hc hc' hne => lt_symbolDistance_of_isCodeword hlen hshort hc hc' hne,
    fun _ _ _ _ hr h h' => h.unique hr h'⟩

end Sys2Proof.Machine

namespace Sys2Proof.Machine

/-! PROOFS. Berlekamp-Massey (R111): what every pass of its loop keeps, and that it ends with the error locator. -/

open Polynomial

variable {F : Type} [Field F] {ι : Byte → F}

/-- What the loop of R111 keeps after `k` passes, for the sequence `u` (a leading 1, then the syndromes) and the number
`v` of errors: the locator is a recurrence of length `L` for the symbols so far, and so is `x^m·B`, of length
`k + 1 - L`, but for its last discrepancy `b`. -/
structure BmState.Inv (ι : Byte → F) (u : F[X]) (v k : ℕ) (st : BmState) : Prop where
  lam_zero : (lowPoly ι st.lam).coeff 0 = 1
  lam_annihilates : Annihilates u (lowPoly ι st.lam) st.l k
  length_le : st.l ≤ k
  length_le_errors : st.l ≤ v
  shift_pos : 0 < st.m
  prev_annihilates : Annihilates u (X ^ st.m * lowPoly ι st.bp) (k + 1 - st.l) k
  prev_discrepancy : (X ^ st.m * lowPoly ι st.bp * u).coeff (k + 1) = ι st.b.1

/-- The start of R111 meets the invariant: before the first symbol, 1 has the discrepancy 1 at the leading 1. -/
theorem bmStart_inv (hι : IsSymbolField ι) {u : F[X]} (hu : u.coeff 0 = 1) (v : ℕ) : bmStart.Inv ι u v 0 := by
  have hone : lowPoly ι [1#8] = 1 := by simp [lowPoly, hι.map_one]
  exact {
    lam_zero := by simp [bmStart, hone]
    lam_annihilates := ⟨by simp [bmStart, hone], fun j hj hj0 => by omega⟩
    length_le := le_rfl
    length_le_errors := Nat.zero_le v
    shift_pos := Nat.one_pos
    prev_annihilates := ⟨by simp [bmStart, hone], fun j hj hj0 => by omega⟩
    prev_discrepancy := by simp [bmStart, hone, hu, hι.map_one] }

/-- The discrepancy of R111 is the first coefficient that the locator does not annihilate yet. -/
theorem map_bmDiscrepancy (hι : IsSymbolField ι) (s : List Byte) {st : BmState} {k : ℕ}
    (hdeg : (lowPoly ι st.lam).natDegree ≤ st.l) (hk : st.l ≤ k) (hzero : (lowPoly ι st.lam).coeff 0 = 1) :
    ι (bmDiscrepancy s st k) = (lowPoly ι st.lam * (1 + X * lowPoly ι s)).coeff (k + 1) := by
  have hterm : ∀ (d : Byte) (i : ℕ),
      (if i + 1 < st.lam.length then d ^^^ gfMul (st.lam.getD (i + 1) 0) (s.getD (k - (i + 1)) 0) else d) =
        d ^^^ gfMul (st.lam.getD (i + 1) 0) (s.getD (k - (i + 1)) 0) := by
    intro d i
    split
    · rfl
    · rw [List.getD_eq_default _ _ (by omega)]
      exact ((congrArg (d ^^^ ·) (gfMul_zero_left _)).trans BitVec.xor_zero).symm
  rw [coeff_succ_mul_one_add_X_mul _ (hdeg.trans hk), coeff_mul_eq_sum_range hdeg, min_eq_right hk,
    Finset.sum_range_succ', hzero, one_mul, add_comm]
  simp only [bmDiscrepancy, hterm, hι.map_foldl_xor, hι.map_gfMul, coeff_lowPoly hι, Nat.sub_zero]

/-- What one pass of the loop of R111 can do: nothing to the locator; correct it and make it longer; correct it at the
same length. -/
theorem bmStep_cases (hι : IsSymbolField ι) (s : List Byte) (st : BmState) (k : ℕ) :
    (bmDiscrepancy s st k = 0 ∧ bmStep s st k = { st with m := st.m + 1 }) ∨
      ∃ (hd : bmDiscrepancy s st k ≠ 0) (lam : List Byte),
        lowPoly ι lam = lowPoly ι st.lam +
          C (ι (bmDiscrepancy s st k) / ι st.b.1) * (X ^ st.m * lowPoly ι st.bp) ∧
        ((2 * st.l ≤ k ∧ bmStep s st k =
            { lam := lam, bp := st.lam, l := k + 1 - st.l, m := 1, b := ⟨bmDiscrepancy s st k, hd⟩ }) ∨
          (k < 2 * st.l ∧ bmStep s st k = { st with lam := lam, m := st.m + 1 })) := by
  unfold bmStep
  by_cases hd : bmDiscrepancy s st k = 0
  · exact .inl ⟨hd, dif_pos hd⟩
  · refine .inr ⟨hd, polyAddLow st.lam (List.replicate st.m 0 ++
      st.bp.map (gfMul (gfDiv (bmDiscrepancy s st k) st.b.1 st.b.2))), ?_, ?_⟩
    · rw [lowPoly_polyAddLow hι, lowPoly_replicate_zero_append hι, lowPoly_map_gfMul hι, hι.map_gfDiv, mul_left_comm]
    · by_cases hl : 2 * st.l ≤ k
      · exact .inl ⟨hl, (dif_neg hd).trans (if_pos hl)⟩
      · exact .inr ⟨not_le.mp hl, (dif_neg hd).trans (if_neg hl)⟩

section

variable {s : List Byte} {st : BmState} {q : F[X]} {v k : ℕ}

/-- A pass that does not change the length shifts `x^m·B` by one more place. -/
theorem BmState.Inv.shift (h : st.Inv ι (1 + X * lowPoly ι s) v k) {lam : List Byte}
    (hzero : (lowPoly ι lam).coeff 0 = 1)
    (hlam : Annihilates (1 + X * lowPoly ι s) (lowPoly ι lam) st.l (k + 1)) :
    ({ st with lam := lam, m := st.m + 1 } : BmState).Inv ι (1 + X * lowPoly ι s) v (k + 1) where
  lam_zero := hzero
  lam_annihilates := hlam
  length_le := h.length_le.trans (Nat.le_succ k)
  length_le_errors := h.length_le_errors
  shift_pos := Nat.succ_pos _
  prev_annihilates := by
    have hlen : k + 1 + 1 - st.l = k + 1 - st.l + 1 := by have := h.length_le; omega
    simpa only [hlen, pow_succ', mul_assoc] using h.prev_annihilates.X_mul
  prev_discrepancy := by
    simpa only [pow_succ', mul_assoc, coeff_X_mul] using h.prev_discrepancy

/-- One pass keeps the invariant, while some recurrence `q` of length `v` holds (R111). -/
theorem BmState.Inv.step (hι : IsSymbolField ι) (h : st.Inv ι (1 + X * lowPoly ι s) v k)
    (hq : Annihilates (1 + X * lowPoly ι s) q v (k + 1)) (hq0 : q.coeff 0 ≠ 0) :
    (bmStep s st k).Inv ι (1 + X * lowPoly ι s) v (k + 1) := by
  have hdisc := map_bmDiscrepancy hι s h.lam_annihilates.1 h.length_le h.lam_zero
  obtain ⟨hd, hstep⟩ | ⟨hd, lam, hlam, hcase⟩ := bmStep_cases hι s st k
  · rw [hstep]
    exact h.shift h.lam_zero (h.lam_annihilates.succ (by rw [← hdisc, hd]; exact hι.map_zero))
  · have hb : ι st.b.1 ≠ 0 := fun hb => st.b.2 ((hι.eq_zero_iff _).mp hb)
    have hlength := h.length_le
    have hzero : (lowPoly ι lam).coeff 0 = 1 := by
      obtain ⟨m, hm⟩ := Nat.exists_eq_add_of_le' h.shift_pos
      simp [hlam, h.lam_zero, hm, pow_succ', mul_assoc]
    have hnext : ∀ l, st.l ≤ l → k + 1 - st.l ≤ l →
        Annihilates (1 + X * lowPoly ι s) (lowPoly ι lam) l (k + 1) := fun l hl hl' => by
      rw [hlam]
      refine h.lam_annihilates.add_C_mul h.prev_annihilates hl hl' ?_
      rw [h.prev_discrepancy, ← hdisc, div_mul_cancel₀ _ hb, hι.add_self]
    obtain ⟨hl, hstep⟩ | ⟨hl, hstep⟩ := hcase
    · have hshortest := h.lam_annihilates.le_add_of_coeff_ne_zero
        (fun h0 => hd ((hι.eq_zero_iff _).mp (hdisc.trans h0))) hq hq0
      rw [hstep]
      exact {
        lam_zero := hzero
        lam_annihilates := hnext (k + 1 - st.l) (by omega) le_rfl
        length_le := Nat.sub_le _ _
        length_le_errors := Nat.sub_le_iff_le_add'.mpr hshortest
        shift_pos := Nat.one_pos
        prev_annihilates := by
          have hlen : k + 1 + 1 - (k + 1 - st.l) = st.l + 1 := by omega
          simpa only [hlen, pow_one] using h.lam_annihilates.X_mul
        prev_discrepancy := by simp only [pow_one, mul_assoc, coeff_X_mul, hdisc] }
    · rw [hstep]
      exact h.shift hzero (hnext _ le_rfl (by omega))

/-- After `k` passes over the syndromes the loop of R111 meets its invariant. -/
theorem bmFold_inv (hι : IsSymbolField ι) (hq : Annihilates (1 + X * lowPoly ι s) q v s.length)
    (hq0 : q.coeff 0 ≠ 0) (hk : k ≤ s.length) :
    ((List.range k).foldl (bmStep s) bmStart).Inv ι (1 + X * lowPoly ι s) v k := by
  induction k with
  | zero => exact bmStart_inv hι (by simp) v
  | succ k ih =>
    rw [List.range_succ, List.foldl_append]
    exact (ih (Nat.le_of_succ_le hk)).step hι (hq.mono hk) hq0

end

/-- Berlekamp-Massey on the syndromes of at most `NSYM / 2` errors gives the error locator, whose degree is their number
and whose sequence has no trailing zeros (R111). -/
theorem berlekampMassey_eq (hι : IsSymbolField ι) {s : List Byte} {E : Finset ℕ} {x y : ℕ → F}
    (hs : lowPoly ι s = syndromePoly E x y s.length) (hinj : Set.InjOn x E) (hx : ∀ p ∈ E, x p ≠ 0)
    (hy : ∀ p ∈ E, y p ≠ 0) (hcard : 2 * E.card ≤ s.length) :
    ∃ lam, berlekampMassey s = (lam, E.card) ∧ lowPoly ι lam = errorLocator E x ∧ lam.length - 1 = E.card := by
  have hinv := bmFold_inv hι (s := s) (hs ▸ errorLocator_annihilates) (by simp [coeff_zero_errorLocator]) le_rfl
  obtain ⟨hlam, hl⟩ := (hs ▸ hinv.lam_annihilates).eq_errorLocator hinj hx hy hinv.lam_zero hinv.length_le_errors hcard
  have hdeg := congrArg natDegree hlam
  rw [natDegree_errorLocator hx] at hdeg
  exact ⟨_, Prod.ext rfl hl, (lowPoly_trimLow hι _).trans hlam, (length_trimLow_sub_one hι _).trans hdeg⟩

end Sys2Proof.Machine

namespace Sys2Proof.Machine

/-! PROOFS. The decoder of R110 to R114 on a word with a codeword within `T`: the root search finds the errors, Forney's
formula their values; what it answers is never further away; and `RS_DEC` is bounded-distance decoding (R108). -/

open Polynomial

section

variable {F : Type} [Field F] {ι : Byte → F} {c r : List Byte} {lam om : List Byte}

/-! ### Syndromes, root search and error values (R110, R112, R113) -/

/-- The syndromes of a word are those of its difference from a codeword (R110). -/
theorem lowPoly_rsSyndromes (hι : IsSymbolField ι) {nsym : ℕ} (hlen : c.length = r.length)
    (hc : isCodeword nsym c = true) :
    lowPoly ι (rsSyndromes nsym r) =
      syndromePoly (errorPositions c r) (symbolLocator ι r.length) (errorValue ι c r) nsym := by
  rw [isCodeword_iff] at hc
  ext j
  rw [coeff_lowPoly hι, coeff_syndromePoly]
  split
  · rename_i hj
    rw [powerSum_errorValue hι hlen, hc j hj, (hι.eq_zero_iff _).mpr rfl, zero_add]
    simp [rsSyndromes, hj]
  · rename_i hj
    rw [List.getD_eq_default _ _ (by simpa using hj)]
    exact hι.map_zero

/-- The root search finds the positions of the errors, each once (R112). -/
theorem mem_chienSearch_iff (hι : IsSymbolField ι) (hr : r.length ≤ 255)
    (hlam : lowPoly ι lam = errorLocator (errorPositions c r) (symbolLocator ι r.length)) (p : ℕ) :
    p ∈ chienSearch lam r.length ↔ p ∈ errorPositions c r := by
  simp only [chienSearch, List.mem_filter, List.mem_range, decide_eq_true_eq]
  by_cases hp : p < r.length
  · have hinj : Set.InjOn (symbolLocator ι r.length) ↑(insert p (errorPositions c r)) :=
      (symbolLocator_injOn hι hr).mono (by
        exact_mod_cast Finset.insert_subset (by simpa using hp) (errorPositions_subset_range c r))
    rw [← hι.eq_zero_iff, hι.map_polyEvalLow, hι.map_gfExp_neg (by omega), hlam]
    simpa [hp, symbolLocator] using eval_errorLocator_eq_zero_iff (by simpa using hinj) (symbolLocator_ne_zero hι _ p)
  · exact ⟨fun h => absurd h.1 hp, fun h => absurd (mem_errorPositions_iff.mp h).1 hp⟩

theorem length_chienSearch (hι : IsSymbolField ι) (hr : r.length ≤ 255)
    (hlam : lowPoly ι lam = errorLocator (errorPositions c r) (symbolLocator ι r.length)) :
    (chienSearch lam r.length).length = (errorPositions c r).card := by
  have hnodup : (chienSearch lam r.length).Nodup := List.nodup_range.filter _
  rw [← List.toFinset_card_of_nodup hnodup]
  congr 1
  ext p
  rw [List.mem_toFinset, mem_chienSearch_iff hι hr hlam]

/-- The evaluator of R113 is the numerator of the error values. -/
theorem lowPoly_rsEvaluator (hι : IsSymbolField ι) {s : List Byte} {E : Finset ℕ} {x y : ℕ → F}
    (hs : lowPoly ι s = syndromePoly E x y s.length) (hlam : lowPoly ι lam = errorLocator E x)
    (hcard : E.card ≤ s.length) : lowPoly ι (rsEvaluator s lam E.card) = locatorNumerator E x y := by
  ext i
  rw [coeff_lowPoly hι]
  by_cases hi : i < s.length
  · have hcoeff : (rsEvaluator s lam E.card).getD i 0 =
        (List.range (min i E.card + 1)).foldl (fun acc j => acc ^^^ gfMul (s.getD (i - j) 0) (lam.getD j 0)) 0 := by
      simp [rsEvaluator, hi]
    rw [hcoeff, hι.map_foldl_xor, (hι.eq_zero_iff _).mpr rfl, zero_add, ← coeff_errorLocator_mul_syndromePoly hi, ← hs,
      ← hlam, coeff_mul_eq_sum_range (hlam ▸ natDegree_errorLocator_le)]
    simp only [hι.map_gfMul, coeff_lowPoly hι, mul_comm]
  · rw [coeff_locatorNumerator_eq_zero _ (by omega), List.getD_eq_default _ _ (by simpa [rsEvaluator] using hi)]
    exact hι.map_zero

/-- Forney's formula gives the difference of the two words at an error position (R113). -/
theorem forneyValue_eq (hι : IsSymbolField ι) (hr : r.length ≤ 255)
    (hlam : lowPoly ι lam = errorLocator (errorPositions c r) (symbolLocator ι r.length))
    (hom : lowPoly ι om =
      locatorNumerator (errorPositions c r) (symbolLocator ι r.length) (errorValue ι c r))
    {p : ℕ} (hp : p ∈ errorPositions c r) :
    forneyValue r.length lam om p = some (c.getD p 0 ^^^ r.getD p 0) := by
  obtain ⟨hden, hvalue⟩ := forney_formula (y := errorValue ι c r)
    (symbolLocator_injOn_errorPositions hι c hr) hp (symbolLocator_ne_zero hι _ p)
  have hx : ι (gfExp ((r.length - 1 - p) % 255)) = symbolLocator ι r.length p := by rw [gfExp_mod, symbolLocator]
  have hnum : ι (polyEvalLow om (gfInv (gfExp ((r.length - 1 - p) % 255)) (gfExp_ne_zero _))) =
      (lowPoly ι om).eval (symbolLocator ι r.length p)⁻¹ := by rw [hι.map_polyEvalLow, hι.map_gfInv, hx]
  have hder : ι (polyEvalLow (formalDerivative lam) (gfInv (gfExp ((r.length - 1 - p) % 255)) (gfExp_ne_zero _))) =
      (derivative (lowPoly ι lam)).eval (symbolLocator ι r.length p)⁻¹ := by
    rw [hι.map_polyEvalLow, hι.map_gfInv, hx, lowPoly_formalDerivative hι]
  have hden' : polyEvalLow (formalDerivative lam) (gfInv (gfExp ((r.length - 1 - p) % 255)) (gfExp_ne_zero _)) ≠ 0 :=
    fun h => hden (by rw [← hlam, ← hder, h]; exact hι.map_zero)
  refine (dif_neg hden').trans (congrArg some (hι.injective ?_))
  rw [hι.map_gfMul, hι.map_gfDiv, hx, hnum, hder, hom, hlam, hvalue, hι.neg_eq, errorValue]

/-- Corrections that take every position where `w` differs from `c` to the symbol of `c` end with `c` (R113). -/
theorem forneyCorrect_eq {ps : List ℕ} {w : List Byte}
    (hvalue : ∀ p ∈ ps, forneyValue r.length lam om p = some (c.getD p 0 ^^^ r.getD p 0))
    (hlen : w.length = c.length) (hw : ∀ p, p < c.length → p ∉ ps → w.getD p 0 = c.getD p 0) :
    forneyCorrect r lam om ps w = some c := by
  induction ps generalizing w with
  | nil => exact congrArg some (eq_of_getD_eq hlen fun p hp => hw p hp (by simp))
  | cons p ps ih =>
    have hfix : r.getD p 0 ^^^ (c.getD p 0 ^^^ r.getD p 0) = c.getD p 0 := by
      rw [BitVec.xor_comm, BitVec.xor_assoc, BitVec.xor_self, BitVec.xor_zero]
    simp only [forneyCorrect, hvalue p (by simp), hfix]
    refine ih (fun q hq => hvalue q (by simp [hq])) (by simpa using hlen) fun q hq hnot => ?_
    by_cases hpq : p = q
    · subst hpq
      simp [hlen, hq]
    · simpa [List.getElem?_set_ne hpq] using hw q hq (by simp [hnot, Ne.symm hpq])

/-! ### The decoder against its definition (R108, R114) -/

/-- Each correction changes at most one symbol. -/
theorem symbolDistance_forneyCorrect_le {ps : List ℕ} {w c' : List Byte} (h : forneyCorrect r lam om ps w = some c') :
    symbolDistance c' r ≤ symbolDistance w r + ps.length := by
  induction ps generalizing w with
  | nil =>
    obtain rfl : w = c' := by simpa [forneyCorrect] using h
    simp
  | cons p ps ih =>
    simp only [forneyCorrect] at h
    split at h
    · cases h
    · rename_i v _
      have hset := symbolDistance_set_le w r p (r.getD p 0 ^^^ v)
      have hrest := ih h
      rw [List.length_cons]
      omega

/-- What the decoder answers is the message part of a codeword within `T` (R114). -/
theorem exists_closeCodeword_of_rsDecode {p : Params} {m : List Byte} (h : (rsDecode p r).1 = some m) :
    ∃ c, CloseCodeword p r c ∧ m = c.take (r.length - p.nsym) := by
  obtain ⟨hr, hd⟩ | ⟨lam, om, ps, c, hps, hc, hcw, hd⟩ | hd := rsDecode_cases p r
  · exact ⟨r, ⟨rfl, hr, by simp [symbolDistance_self]⟩, Option.some.inj (h.symm.trans hd)⟩
  · have hdist := symbolDistance_forneyCorrect_le hc
    rw [symbolDistance_self] at hdist
    exact ⟨c, ⟨forneyCorrect_length _ _ _ _ _ _ hc, hcw, by omega⟩, Option.some.inj (h.symm.trans hd)⟩
  · cases h.symm.trans hd

/-- The stages of R110 to R114 on a word that is no codeword: when all of them go through, the answer is the message
part of the corrected word. -/
theorem rsDecode_of_stages {p : Params} {l : ℕ} {pos : List ℕ} (hr : isCodeword p.nsym r = false)
    (hbm : berlekampMassey (rsSyndromes p.nsym r) = (lam, l)) (hdeg : lam.length - 1 = l) (hl : l ≤ p.t)
    (hpos : chienSearch lam r.length = pos) (hcount : pos.length = l)
    (hcorrect : forneyCorrect r lam (rsEvaluator (rsSyndromes p.nsym r) lam l) pos r = some c)
    (hc : isCodeword p.nsym c = true) : (rsDecode p r).1 = some (c.take (r.length - p.nsym)) := by
  simp only [rsDecode, syndromes_all_zero_iff, hr, hbm, hdeg, hpos, hcount, hcorrect, hc, not_lt.mpr hl, ne_eq,
    not_true_eq_false, or_self, Bool.false_eq_true, if_false, if_true]

/-- A codeword within `T` symbols is found (R114). -/
theorem rsDecode_of_closeCodeword {p : Params} (hr : r.length ≤ 255) (h : CloseCodeword p r c) :
    (rsDecode p r).1 = some (c.take (r.length - p.nsym)) := by
  cases hcw : isCodeword p.nsym r with
  | true =>
    obtain rfl : c = r := h.unique hr ⟨rfl, hcw, by simp [symbolDistance_self]⟩
    simp only [rsDecode, syndromes_all_zero_iff, hcw, if_true]
  | false =>
    obtain ⟨hlen, hc, hdist⟩ := h
    rw [← card_errorPositions hlen] at hdist
    obtain ⟨F, _, ι, hι⟩ := exists_isSymbolField
    have ht : p.t = p.nsym / 2 := rfl
    have hsyn := lowPoly_rsSyndromes hι hlen hc
    obtain ⟨lam, hbm, hlam, hdeg⟩ := berlekampMassey_eq hι (s := rsSyndromes p.nsym r)
      (by rw [hsyn, rsSyndromes_length]) (symbolLocator_injOn_errorPositions hι c hr)
      (fun q _ => symbolLocator_ne_zero hι _ q) (fun q hq => errorValue_ne_zero hι hq)
      (by rw [rsSyndromes_length]; omega)
    have hom := lowPoly_rsEvaluator hι (s := rsSyndromes p.nsym r) (by rw [hsyn, rsSyndromes_length]) hlam
      (by rw [rsSyndromes_length]; omega)
    refine rsDecode_of_stages hcw hbm hdeg hdist rfl (length_chienSearch hι hr hlam) ?_ hc
    refine forneyCorrect_eq (fun q hq => ?_) hlen.symm fun q hq hnot => ?_
    · exact forneyValue_eq hι hr hlam hom ((mem_chienSearch_iff hι hr hlam q).mp hq)
    · rw [mem_chienSearch_iff hι hr hlam, mem_errorPositions_iff] at hnot
      by_contra hne
      exact hnot ⟨hlen ▸ hq, Ne.symm hne⟩

end

/-! ### The command (R108, R115) -/

/-- `RS_DEC` on an accepted length ends with what the decoder answers (R52, R115). -/
theorem exec_rsDec_of_length {s : State} (hlo : s.cfg.nsym + 1 ≤ s.ilen.toNat) (hhi : s.ilen.toNat ≤ 255) :
    exec .rsDec s = .next ({ s with inner := (rsDecCompute s.cfg s.inner (s.input s.ilen.toNat)).2 }.finish
      (rsDecCompute s.cfg s.inner (s.input s.ilen.toNat)).1) := by
  have hlength : commandLength .rsDec s.cfg s.ilen.toNat = true := by
    simp [commandLength, rsDecLength, nmax, hlo, hhi]
  rw [exec_eq_runCommand_of, State.runCommand_valid s _ _ _ hlength rfl]
  rfl

/-- Settles O39: a codeword within `T` is found by `rsDecode_of_closeCodeword`, and an answer comes from such a codeword
by `exists_closeCodeword_of_rsDecode`. -/
theorem rsDecIsBoundedDistanceDecoding : Obligations.RsDecIsBoundedDistanceDecoding := by
  intro s _ hlo hhi
  rw [exec_rsDec_of_length hlo hhi]
  refine ⟨fun c hc => ⟨(rsDecode s.cfg (s.input s.ilen.toNat)).2, ?_⟩,
    fun hnone => ⟨(rsDecode s.cfg (s.input s.ilen.toNat)).2, ?_⟩⟩
  · have hdecode := rsDecode_of_closeCodeword (by simpa using hhi) hc
    rw [State.input_length] at hdecode
    simp [rsDecCompute, hdecode, State.succeed]
  · have hdecode : (rsDecode s.cfg (s.input s.ilen.toNat)).1 = none :=
      Option.eq_none_iff_forall_ne_some.mpr fun m hm => by
        obtain ⟨c, hc, -⟩ := exists_closeCodeword_of_rsDecode hm
        exact hnone ⟨c, hc⟩
    simp [rsDecCompute, hdecode, State.raise]

end Sys2Proof.Machine

namespace Sys2Proof.Machine

/-! PROOFS. What a command and a write to `CMD` leave, error by error and field by field; reset; and what each host
access reads and changes (R13, R15, R32, R46, R52, R146, R147, R152, R165, R166). -/

/-! ### How a command ends (R52, R146, R147, R152) -/

/-- Every command goes on. -/
theorem exec_goes_on (i : Instr) (s : State) : ∃ t, exec i s = .next t :=
  ⟨_, exec_eq_runCommand_of i s⟩

/-- A failed check ends a command with `INVALID_INPUT`, and nothing is computed (R52). -/
theorem exec_of_not_inputAccepted {i : Instr} {s : State} (h : ¬ InputAccepted i s) :
    exec i s = .next (s.raise .invalidInput) := by
  obtain ⟨t, ht⟩ := exec_goes_on i s
  obtain ⟨-, rfl⟩ | ⟨hyes, -⟩ := exec_next_cases ht
  · exact ht
  · exact absurd hyes h

theorem not_inputAccepted_of_length {i : Instr} {s : State} (h : lengthAccepted s.cfg s.ilen.toNat i = false) :
    ¬ InputAccepted i s := fun ⟨hlen, _⟩ => Bool.false_ne_true (h.symm.trans hlen)

/-- The two errors a command can end with, and what they leave: a failed check, or a failed computation of `RS_DEC`
(R152; log 8). -/
theorem exec_error_cases {i : Instr} {s t : State} (h : exec i s = .next t) (herr : t.err ≠ .ok) :
    (¬ InputAccepted i s ∧ t = s.raise .invalidInput) ∨
      (InputAccepted i s ∧ i = .rsDec ∧
        ∃ rs, t = ({ s with inner := { s.inner with rs := rs } } : State).raise .uncorrectable) := by
  obtain hno | ⟨hyes, rfl⟩ := exec_next_cases h
  · exact .inl hno
  · cases hr : commandResult s.cfg (s.input s.ilen.toNat) i with
    | done res pos => simp [hr] at herr
    | uncorrectable =>
      obtain ⟨rfl, -⟩ := (commandResult_eq_uncorrectable_iff _ _ _).mp hr
      exact .inr ⟨hyes, rfl, (rsDecode s.cfg (s.input s.ilen.toNat)).2, rfl⟩

theorem finish_frame (s : State) (r : CodecResult) :
    (s.finish r).opc = s.opc ∧ (s.finish r).ilen = s.ilen ∧ (s.finish r).ibuf = s.ibuf ∧
      (s.finish r).epoch = s.epoch ∧ (s.finish r).draws = s.draws ∧ (s.finish r).pending = s.pending ∧
      (s.finish r).answer = s.answer ∧ (s.finish r).commanded = true ∧ (s.finish r).inner = s.inner := by
  cases r <;> simp

/-- No command changes `CFG`, `OPC`, `ILEN`, `IBUF`, the host's list and answer or the counters (R52). -/
theorem exec_frame {i : Instr} {s t : State} (h : exec i s = .next t) :
    t.cfg = s.cfg ∧ t.opc = s.opc ∧ t.ilen = s.ilen ∧ t.ibuf = s.ibuf ∧ t.epoch = s.epoch ∧ t.draws = s.draws ∧
      t.pending = s.pending ∧ t.answer = s.answer ∧ t.commanded = true := by
  refine ⟨exec_keeps_cfg h, ?_⟩
  obtain ⟨-, rfl⟩ | ⟨-, rfl⟩ := exec_next_cases h
  · simp
  · simp [finish_frame]

/-- The codec-internal state after a command: as before, or what its computation left. -/
theorem exec_inner {i : Instr} {s t : State} (h : exec i s = .next t) :
    t.inner = s.inner ∨ t.inner = (commandCompute i s.cfg s.inner (s.input s.ilen.toNat)).2 := by
  obtain ⟨-, rfl⟩ | ⟨-, rfl⟩ := exec_next_cases h
  · exact .inl rfl
  · exact .inr (by simp [finish_frame])

/-! ### A write to `CMD` (R13, R48, R52) -/

/-- A write to `CMD` runs the command whose word it is, or raises `IllegalCommand`. -/
theorem writeCmd_next_cases {s t : State} {w : Word} (h : s.writeCmd w = .next t) :
    (∃ i, w = encode i ∧ exec i (s.recordOpc (opcField w)) = .next t) ∨
      t = (s.recordOpc (opcField w)).raise .illegalCmd := by
  cases hw : decode w with
  | ok i => exact .inl ⟨i, (decode_eq_ok_iff w i).mp hw, s.writeCmd_of_ok w i hw ▸ h⟩
  | error r => exact .inr (Host.Outcome.next.inj ((s.writeCmd_of_error w r hw).symm.trans h)).symm

/-- What a write to `CMD` leaves, whatever the command did (R13, R52). -/
theorem writeCmd_frame {s t : State} {w : Word} (h : s.writeCmd w = .next t) :
    t.cfg = s.cfg ∧ t.opc = opcField w ∧ t.ilen = s.ilen ∧ t.ibuf = s.ibuf ∧ t.epoch = s.epoch ∧ t.draws = s.draws ∧
      t.pending = s.pending ∧ t.answer = s.answer ∧ t.commanded = true := by
  obtain ⟨i, -, hexec⟩ | rfl := writeCmd_next_cases h
  · exact exec_frame hexec
  · simp

/-- The step of a host that writes `CMD` next. -/
theorem step_of_cmd_write {s : State} {w : Word} {rest : List HostAction} (h : s.pending = .regWrite 0 w :: rest) :
    step s = (s.issue rest).writeCmd w := step_of_inRange s _ rest h rfl

theorem step_of_decode {s : State} {w : Word} {rest : List HostAction} {i : Instr}
    (h : s.pending = .regWrite 0 w :: rest) (hw : decode w = .ok i) :
    step s = exec i ((s.issue rest).recordOpc (opcField w)) :=
  (step_of_cmd_write h).trans (State.writeCmd_of_ok _ w i hw)

/-- A command word placed as the host's next access is run by the next step. -/
theorem step_withFetchWord (s : State) (i : Instr) :
    step (s.withFetchWord 32 (encode i).toNat) = exec i { s with answer := none, opc := opcodeOf i } := by
  have hword : BitVec.ofNat 32 ((encode i).toNat % 2 ^ 32) = encode i := by
    rw [Nat.mod_eq_of_lt (encode i).isLt, BitVec.ofNat_toNat, BitVec.setWidth_eq]
  have hrun := step_of_decode (s := s.withCmdWrite (encode i)) rfl ((decode_eq_ok_iff _ i).mpr rfl)
  rw [opcField_encode] at hrun
  rw [State.withFetchWord, hword]
  exact hrun

/-- `CMD` reads as the recorded byte. -/
theorem readReg_zero_of_opc {s : State} {w : Word} (h : s.opc = opcField w) : s.readReg 0 = w &&& 0xFF := by
  have hread : s.readReg 0 = (0 : BitVec 24) ++ s.opc := rfl
  refine BitVec.eq_of_toNat_eq ?_
  rw [hread, h, BitVec.toNat_append, BitVec.toNat_and]
  simpa [opcField] using (Nat.and_two_pow_sub_one_eq_mod w.toNat 8).symm

/-! ### The obligations about commands -/

/-- Settles O17: the frame by `exec_frame`, the internal state by `exec_inner` and what each
computation leaves; the cells from `OLEN` on as O11 says. -/
theorem commandsChangeOnlyTheirResults : Obligations.CommandsChangeOnlyTheirResults := by
  intro i s t hlegal h
  obtain ⟨hcfg, hopc, hilen, hibuf, hepoch, hrest⟩ := exec_frame h
  obtain ⟨-, -, holen⟩ := olenRegisterFollowsItsRule
  obtain ⟨-, -, hcells⟩ := holen i s t hlegal h
  have hinner := exec_inner h
  refine ⟨⟨hcfg, hopc, hilen, hibuf, hepoch, hrest⟩, fun k => ?_, fun k hk => ?_, ?_, ?_, ?_, ?_, ?_⟩
  · rw [State.ibufCell_eq, State.ibufCell_eq, hibuf, hepoch]
  · exact Option.not_isSome_iff_eq_none.mp (by simpa [hcells k] using hk)
  · rintro (rfl | rfl) <;> exact hinner.elim id id
  all_goals
    rintro rfl
    obtain hsame | hnew := hinner
    · rw [hsame]
    · rw [hnew]
      rfl

/-- A codeword is within `T` symbols of itself (R108). -/
theorem closeCodeword_self {p : Params} {c : List Byte} (hc : isCodeword p.nsym c = true) : CloseCodeword p c c :=
  ⟨rfl, hc, by simp [symbolDistance_self]⟩

/-- Settles O18: both checks pass and the computation gives a result, of the length of R46's table. -/
theorem everyCommandCompletesOnValidInput : Obligations.EveryCommandCompletesOnValidInput := by
  intro i s hlen halpha hcw
  obtain ⟨t, ht⟩ := exec_goes_on i s
  obtain ⟨hno, -⟩ | ⟨-, rfl⟩ := exec_next_cases ht
  · exact absurd ⟨hlen, halpha⟩ hno
  · cases hr : commandResult s.cfg (s.input s.ilen.toNat) i with
    | uncorrectable =>
      obtain ⟨rfl, hnone⟩ := (commandResult_eq_uncorrectable_iff _ _ _).mp hr
      obtain ⟨-, hshort⟩ : s.cfg.nsym < s.ilen.toNat ∧ s.ilen.toNat ≤ 255 := by simpa [lengthAccepted] using hlen
      have hsome := rsDecode_of_closeCodeword (by simpa using hshort) (closeCodeword_self (p := s.cfg) (hcw rfl))
      cases hsome.symm.trans hnone
    | done res pos =>
      have hres : res.length = resultLength s.cfg s.ilen.toNat i := by simpa using length_of_commandResult hr
      exact ⟨_, ht, by simp [hr], by simp [hr, hres], by simp [hr, ← hres, Memory.keys_ofSeq]⟩

/-- Settles O19: of the ways a command ends, only a failed check gives `INVALID_INPUT`. -/
theorem invalidInputCausesAreComplete : Obligations.InvalidInputCausesAreComplete := by
  intro i s t h
  have hcauses : (lengthAccepted s.cfg s.ilen.toNat i = false ∨ ¬ AlphabetAccepted i s s.ilen.toNat) ↔
      ¬ InputAccepted i s := by rw [InputAccepted, not_and_or, Bool.not_eq_true]
  obtain ⟨hinvalid, -⟩ := exec_err h
  rw [hcauses]
  refine ⟨⟨fun herr => ?_, hinvalid⟩, fun herr => ?_⟩ <;>
    obtain ⟨hno, rfl⟩ | ⟨-, -, rs, rfl⟩ := exec_error_cases h (by simp [herr])
  · exact hno
  · cases herr
  · rfl
  · cases herr

/-- Settles O21: of the errors a command ends with, only `RS_DEC`'s own is not `INVALID_INPUT`. -/
theorem onlyRsDecIsUncorrectable : Obligations.OnlyRsDecIsUncorrectable := by
  intro i s t h herr
  obtain ⟨-, rfl⟩ | ⟨⟨hlen, -⟩, rfl, rs, rfl⟩ := exec_error_cases h (by simp [herr])
  · cases herr
  · exact ⟨rfl, hlen, rfl, rfl, rfl⟩

/-- Settles O20: an illegal word raises its error at once, a command ends with one of the two of `exec_error_cases`. -/
theorem errorEntryChangesExactlyThis : Obligations.ErrorEntryChangesExactlyThis := by
  intro s w rest hpending
  obtain ⟨t, ht⟩ := (s.issue rest).access_goes_on (.regWrite 0 w)
  refine ⟨t, (step_of_cmd_write hpending).trans ht, ?_⟩
  obtain ⟨i, -, hexec⟩ | rfl := writeCmd_next_cases ht
  · by_cases herr : t.err = .ok
    · simp [herr]
    · obtain ⟨-, rfl⟩ | ⟨-, -, rs, rfl⟩ := exec_error_cases hexec herr
      · exact ⟨fun _ => rfl, fun _ => rfl, fun h => by cases h⟩
      · exact ⟨fun _ => rfl, fun h => (by rcases h with h | h <;> cases h), fun _ => rfl⟩
  · exact ⟨fun _ => rfl, fun _ => rfl, fun h => by cases h⟩

/-- Settles O10: the fields by the layout of the word, the rejected lengths by `exec_of_not_inputAccepted`. -/
theorem ilenRegisterFollowsItsRule : Obligations.IlenRegisterFollowsItsRule := by
  refine ⟨fun s v => rfl, fun s => ?_, fun i s t h => ?_, fun i s hlen => ?_⟩
  · exact ⟨BitVec.extractLsb'_append_eq_right, BitVec.extractLsb'_append_eq_of_le le_rfl⟩
  · obtain ⟨-, -, hilen, -⟩ := exec_frame h
    exact hilen
  · exact exec_of_not_inputAccepted (not_inputAccepted_of_length hlen)

/-- Settles O8: after a write to `CMD` by `writeCmd_frame`, after any other access by `access_keeps_result`. -/
theorem cmdReadsBackTheLowByte : Obligations.CmdReadsBackTheLowByte := by
  refine ⟨rfl, fun s t w rest hpending h => ?_, fun s t a ha h => ?_⟩
  · obtain ⟨-, hopc, -⟩ := writeCmd_frame ((step_of_cmd_write hpending).symm.trans h)
    exact readReg_zero_of_opc hopc
  · obtain ⟨-, hopc, -⟩ := access_keeps_result ha h
    exact congrArg ((0 : BitVec 24) ++ ·) hopc

/-- Settles O3: `step_of_decode` and `step_withFetchWord`. -/
theorem stepRunsTheDecodedCommand : Obligations.StepRunsTheDecodedCommand :=
  ⟨fun _ _ _ _ hpending hw _ => step_of_decode hpending hw, step_withFetchWord⟩

/-- Settles O5: each is the word of its command. -/
theorem specWordsDecodeToTheirCommands : Obligations.SpecWordsDecodeToTheirCommands := by
  unfold Obligations.SpecWordsDecodeToTheirCommands
  simp only [decode_eq_ok_iff]
  decide

/-! ### The obligations about reset -/

/-- No command accepts the length 0 (R146). -/
theorem lengthAccepted_zero (p : Params) (i : Instr) : lengthAccepted p 0 i = false := by
  cases i <;> simp [lengthAccepted]

/-- Settles O1: the reset state field by field. -/
theorem resetLeavesTheStatedValues : Obligations.ResetLeavesTheStatedValues := by
  refine ⟨rfl, rfl, rfl, rfl, rfl, fun i => ⟨rfl, rfl⟩, rfl, rfl, fun row hrow st => ?_, rfl⟩
  rw [List.eq_of_mem_replicate hrow]
  obtain ⟨x, y⟩ := st
  cases x <;> cases y <;> rfl

/-- Settles O2: `ILEN` is 0 after reset, and no command accepts that length. -/
theorem commandAfterResetIsInvalidInput : Obligations.CommandAfterResetIsInvalidInput := by
  intro p i _
  rw [step_withFetchWord]
  exact exec_of_not_inputAccepted (not_inputAccepted_of_length (lengthAccepted_zero p i))

/-- Settles O4: the step is the platform's reset, which leaves these fields. -/
theorem platformResetRestoresTheResetState : Obligations.PlatformResetRestoresTheResetState := by
  intro s rest hpending
  exact ⟨(s.issue rest).platformReset, step_of_inRange s _ rest hpending rfl, rfl, rfl, rfl, rfl, rfl, rfl, rfl,
    fun _ => ⟨rfl, rfl⟩, rfl, rfl, rfl, rfl, rfl⟩

/-! ### Host accesses (R15, R18, R19, R32, R165) -/

/-- A read of an `OBUF` cell, by what the cell holds and whether a command has ended (R19, R32). -/
theorem access_memRead_obuf (s : State) (i : Nat) :
    s.access (.memRead .obuf i) = .next ((s.readObuf i).2.reply (.cell (s.readObuf i).1)) := rfl

theorem readObuf_of_specified {s : State} {i : Nat} {b : Byte} (h : s.obuf.read i = some b) :
    s.readObuf i = (b, s) := by simp [State.readObuf, h]

theorem readObuf_of_unspecified {s : State} {i : Nat} (h : s.obuf.read i = none) :
    s.readObuf i = if s.commanded then (Config.obufDraw s.draws, { s with draws := s.draws + 1 })
      else (Config.obufPowerUp s.epoch i, s) := by simp [State.readObuf, h]

/-- Every way in which an access inside the ranges can end: at most the answer and the counter of draws are new, or it
is one of the four accesses that write. -/
theorem access_next_cases {s t : State} {a : HostAction} (h : s.access a = .next t) :
    (∃ ans d, t = { s with answer := ans, draws := d }) ∨ (∃ i v, a = .memWrite .ibuf i v ∧ t = s.writeIbuf i v) ∨
      (∃ v, a = .regWrite 2 v ∧ t = s.writeIlen v) ∨ (∃ w, a = .regWrite 0 w ∧ s.writeCmd w = .next t) ∨
      (a = .reset ∧ t = s.platformReset) := by
  cases a with
  | regRead n => cases h; exact .inl ⟨_, s.draws, rfl⟩
  | memRead sp i =>
    cases h
    cases sp with
    | ibuf => exact .inl ⟨_, s.draws, rfl⟩
    | obuf =>
      simp only [State.readCell]
      obtain ⟨b, -, e⟩ | ⟨-, -, e⟩ | ⟨-, -, e⟩ := s.readObuf_cases i <;> rw [e] <;> exact .inl ⟨_, _, rfl⟩
  | memWrite sp i v =>
    cases h
    cases sp with
    | ibuf => exact .inr (.inl ⟨i, v, rfl, rfl⟩)
    | obuf => exact .inl ⟨s.answer, s.draws, rfl⟩
  | reset => cases h; exact .inr (.inr (.inr (.inr ⟨rfl, rfl⟩)))
  | regWrite n v =>
    match n with
    | 0 => exact .inr (.inr (.inr (.inl ⟨v, rfl, h⟩)))
    | 2 => cases h; exact .inr (.inr (.inl ⟨v, rfl, rfl⟩))
    | 1 | _ + 3 => cases h; exact .inl ⟨s.answer, s.draws, rfl⟩

/-- Before the first command a read leaves the state. -/
theorem readObuf_snd_of_not_commanded {s : State} (h : s.commanded = false) (i : Nat) : (s.readObuf i).2 = s := by
  obtain ⟨b, -, e⟩ | ⟨-, -, e⟩ | ⟨-, hc, -⟩ := s.readObuf_cases i
  · rw [e]
  · rw [e]
  · cases h.symm.trans hc

/-- The byte that a read of `OBUF` gives does not depend on the last answer. -/
theorem readObuf_fst_reply (s : State) (a : HostAnswer) (i : Nat) :
    ((s.reply a).readObuf i).1 = (s.readObuf i).1 := by
  cases h : s.obuf.read i with
  | some b => rw [readObuf_of_specified h, readObuf_of_specified (s := s.reply a) h]
  | none =>
    rw [readObuf_of_unspecified h, readObuf_of_unspecified (s := s.reply a) h]
    cases hc : s.commanded <;> simp [hc]

/-- Settles O13: the reads of `OBUF` by the cases of `readObuf`, every other access by what it is. -/
theorem accessesHaveNoHiddenEffect : Obligations.AccessesHaveNoHiddenEffect := by
  refine ⟨fun s n => rfl, fun s i => rfl, fun s i => ?_, fun s i b h => ?_, fun s i h => ?_, fun s n v hn => ?_,
    fun s i v => rfl⟩
  · rw [access_memRead_obuf]
    obtain ⟨b, -, e⟩ | ⟨-, -, e⟩ | ⟨-, -, e⟩ := s.readObuf_cases i
    · exact ⟨b, s.draws, by rw [e]; rfl⟩
    · exact ⟨_, s.draws, by rw [e]; rfl⟩
    · exact ⟨_, s.draws + 1, by rw [e]; rfl⟩
  · rw [access_memRead_obuf, readObuf_of_specified h]
    rfl
  · exact ⟨(s.readObuf i).1, by rw [access_memRead_obuf, readObuf_snd_of_not_commanded h]; rfl⟩
  · rcases hn with rfl | rfl | rfl <;> rfl

/-- A cell whose index is not listed reads as unspecified. -/
theorem Memory.read_eq_none {m : Memory} {i : Nat} (h : i ∉ m.map Prod.fst) : m.read i = none := by
  induction m with
  | nil => rfl
  | cons e m ih =>
    simp only [List.map_cons, List.mem_cons, not_or] at h
    obtain ⟨hne, hnot⟩ := h
    rw [Memory.read_cons, if_neg (Ne.symm hne), ih hnot]

/-- With canonical buffers the cells from `OLEN` on are unspecified. -/
theorem State.BuffersOk.read_obuf_eq_none {s : State} (h : s.BuffersOk) {i : Nat} (hi : s.olen.toNat ≤ i) :
    s.obuf.read i = none := by
  obtain ⟨-, -, -, hkeys, -⟩ := h
  exact Memory.read_eq_none (by simpa [hkeys] using hi)

/-- Settles O15: the cell is unspecified, so the read draws, or gives the cell's own free value. -/
theorem unspecifiedObufCellReadsFree : Obligations.UnspecifiedObufCellReadsFree := by
  refine ⟨fun s i hb hi hc => ?_, fun s i hb hi hc => ?_, fun s t u i hc ht hu => ?_⟩
  · rw [access_memRead_obuf, readObuf_of_unspecified (hb.read_obuf_eq_none hi), if_pos hc]
    rfl
  · rw [access_memRead_obuf, readObuf_of_unspecified (hb.read_obuf_eq_none hi), if_neg (by simp [hc])]
    rfl
  · rw [access_memRead_obuf, readObuf_snd_of_not_commanded hc] at ht
    cases ht
    rw [access_memRead_obuf, readObuf_snd_of_not_commanded (s := s.reply _) hc, readObuf_fst_reply] at hu
    cases hu
    rfl

end Sys2Proof.Machine

namespace Sys2Proof.Machine

/-! PROOFS. The invariant of a state, which every step keeps; and runs: every pending access in range is served, and
what no access of a list touches is there after it (R14, R16, R18, R19, R22 to R24, R39, R51, R168, R169). -/

/-! ### The sizes of the codec-internal state (R22 to R24) -/

/-- The scratch that the decoder leaves has the sizes of R24. -/
theorem rsDecode_scratch_sizes (p : Params) (r : List Byte) :
    (rsDecode p r).2.syndromes.length = p.nsym ∧ (rsDecode p r).2.locator.length ≤ p.t + 1 ∧
      (rsDecode p r).2.evaluator.length = p.nsym ∧ (rsDecode p r).2.positions.length ≤ p.t := by
  have hevaluator : ∀ lam l, (rsEvaluator (rsSyndromes p.nsym r) lam l).length = p.nsym := by simp [rsEvaluator]
  simp only [rsDecode]
  split
  · simp [RsScratch.init]
  · split
    · simp [RsScratch.init]
    · split
      · simp [RsScratch.init]
      · have hpos : (chienSearch (berlekampMassey (rsSyndromes p.nsym r)).1 r.length).length ≤ p.t := by omega
        split
        · simp [hevaluator, hpos]
        · split <;> simp [hevaluator, hpos]

theorem bitDistance_le_length (a b : List Bool) : bitDistance a b ≤ a.length := by
  induction a generalizing b with
  | nil => simp [bitDistance]
  | cons x a ih =>
    cases b with
    | nil => simp [bitDistance]
    | cons y b =>
      have := ih b
      simp only [bitDistance, List.length_cons]
      split <;> omega

/-- A metric of the forward pass is the distance of a message from the received bits, so at most their number (R22). -/
theorem metric_viterbiForward_le {segs : List (Bool × Bool)} {st : ConvState} {c : ℕ}
    (h : (viterbiForward metricsStart segs).1.get st = some c) : c ≤ 2 * segs.length := by
  have hpaths := survivors_foldl_refStep segs
  rw [pathsStart_eq_pathsOf, foldl_refStep_pathsOf, List.append_nil] at hpaths
  obtain ⟨hlen, -, rfl⟩ := hpaths.sound (st := st) (by rw [pathsOf_get, h]; rfl)
  rw [← hlen, ← convEncode_length]
  exact bitDistance_le_length _ _

/-- Every computation leaves an internal state of the sizes of R22 to R24, when its checks have passed. -/
theorem internalsOk_commandCompute {i : Instr} {s : State} (hok : s.InternalsOk)
    (hlen : lengthAccepted s.cfg s.ilen.toNat i = true) :
    ({ s with inner := (commandCompute i s.cfg s.inner (s.input s.ilen.toNat)).2 } : State).InternalsOk := by
  obtain ⟨hmetrics, hsurv, hpar, hsyn, hloc, heval, hpos⟩ := id hok
  cases i with
  | hamEnc | hamDec | convEnc => exact hok
  | vitDec =>
    have hle : s.ilen.toNat ≤ s.cfg.bufsz := by
      simp only [lengthAccepted, Bool.not_eq_true', Bool.or_eq_false_iff, decide_eq_false_iff_not, not_lt] at hlen
      exact hlen.2
    have hsegs : (segments (bitsOf (s.input s.ilen.toNat))).length = s.ilen.toNat / 2 := by simp [segments_length]
    refine ⟨?_, ?_, hpar, hsyn, hloc, heval, hpos⟩
    · simp only [commandCompute, vitDecCompute, Quad.get_map, List.all_eq_true, Option.all_eq_true, decide_eq_true_eq,
        Option.map_eq_some_iff]
      rintro st - _ ⟨c, hc, rfl⟩
      have hcle := metric_viterbiForward_le hc
      exact (BitVec.toNat_ofNat c 16 ▸ Nat.mod_le c _).trans (by omega)
    · simp only [commandCompute, vitDecCompute, List.length_append, viterbiForward_length, List.length_drop, hsegs,
        hsurv]
      omega
  | rsEnc => exact ⟨hmetrics, hsurv, rsParity_length _ _, hsyn, hloc, heval, hpos⟩
  | rsDec => exact ⟨hmetrics, hsurv, hpar, rsDecode_scratch_sizes _ _⟩

/-! ### The invariant -/

/-- The part of the invariant that speaks of no register: what a command needs of a state. -/
abbrev State.BodyOk (s : State) : Prop :=
  s.cfg.legal = true ∧ s.ibuf.wf = true ∧ s.ibuf.below s.cfg.bufsz = true ∧ s.InternalsOk

theorem State.Inv.bodyOk {s : State} (h : s.Inv) : s.BodyOk := by
  obtain ⟨hlegal, -, ⟨hwf, hbelow, -⟩, hinner, -⟩ := h
  exact ⟨hlegal, hwf, hbelow, hinner⟩

/-- Taking an error sets up everything of the invariant that the registers and `OBUF` have in it (R152). -/
theorem State.BodyOk.inv_raise {s : State} (h : s.BodyOk) (e : ErrCode) : (s.raise e).Inv := by
  obtain ⟨hlegal, hwf, hbelow, hinner⟩ := h
  exact ⟨hlegal, ⟨Nat.zero_le 7, fun hpos => absurd rfl hpos, fun _ => ⟨rfl, rfl⟩⟩,
    ⟨hwf, hbelow, rfl, rfl, Nat.zero_le _⟩, hinner, fun hc => by cases hc⟩

/-- So does a result that fits into `OBUF`, with an error position that `HAM_DEC` alone makes other than 0 (R52). -/
theorem State.BodyOk.inv_succeed {s : State} (h : s.BodyOk) {res : List Byte} {pos : BitVec 4}
    (hres : res.length ≤ s.cfg.bufsz) (hpos : pos.toNat ≤ 7) (hham : pos ≠ 0 → s.opc = 0x02) :
    (s.succeed res pos).Inv := by
  obtain ⟨hlegal, hwf, hbelow, hinner⟩ := h
  have holen : (BitVec.ofNat 16 res.length).toNat = res.length := by
    simpa using hres.trans_lt (bufsz_lt_of_legal hlegal)
  refine ⟨hlegal, ⟨hpos, hham, fun herr => absurd rfl herr⟩, ⟨hwf, hbelow, Memory.wf_ofSeq res, ?_, ?_⟩, hinner,
    fun hc => by cases hc⟩
  · rw [State.succeed_obuf, State.succeed_olen, holen, Memory.keys_ofSeq]
  · rw [State.succeed_olen, holen]
    exact hres

/-- No command reports an error position above 7 (R14, R62). -/
theorem errpos_le_of_commandResult {p : Params} {inp : List Byte} {i : Instr} {res : List Byte} {pos : BitVec 4}
    (h : commandResult p inp i = .done res pos) : pos.toNat ≤ 7 := by
  by_cases hi : i = .hamDec
  · subst hi
    obtain ⟨-, rfl⟩ := CodecResult.done.inj h
    exact (BitVec.toNat_ofNat .. ▸ Nat.mod_le _ _).trans (hamSyndrome_le _)
  · rw [errpos_of_commandResult h hi]
    exact Nat.zero_le 7

/-- A command that has been recorded in `OPC` ends in a state that meets the invariant. -/
theorem inv_exec {i : Instr} {s t : State} (hs : s.BodyOk) (hopc : s.opc = opcodeOf i) (h : exec i s = .next t) :
    t.Inv := by
  obtain ⟨-, rfl⟩ | ⟨⟨hlen, -⟩, rfl⟩ := exec_next_cases h
  · exact hs.inv_raise _
  · obtain ⟨hlegal, hwf, hbelow, hinner⟩ := hs
    have hbody : ({ s with inner := (commandCompute i s.cfg s.inner (s.input s.ilen.toNat)).2 } : State).BodyOk :=
      ⟨hlegal, hwf, hbelow, internalsOk_commandCompute hinner hlen⟩
    cases hr : commandResult s.cfg (s.input s.ilen.toNat) i with
    | uncorrectable => exact hbody.inv_raise _
    | done res pos =>
      have hres : res.length = resultLength s.cfg s.ilen.toNat i := by simpa using length_of_commandResult hr
      refine hbody.inv_succeed (hres ▸ resultLength_le_bufsz hlegal hlen) (errpos_le_of_commandResult hr) fun hpos => ?_
      have hi : i = .hamDec := by_contra fun hi => hpos (errpos_of_commandResult hr hi)
      exact hopc.trans (congrArg opcodeOf hi)

theorem inv_writeCmd {s t : State} {w : Word} (hs : s.BodyOk) (h : s.writeCmd w = .next t) : t.Inv := by
  obtain ⟨i, rfl, hexec⟩ | rfl := writeCmd_next_cases h
  · exact inv_exec (s := s.recordOpc (opcField (encode i))) hs (opcField_encode i) hexec
  · exact State.BodyOk.inv_raise (s := s.recordOpc (opcField w)) hs _

/-- The reset state with legal parameters meets the invariant (R166). -/
theorem inv_resetOf {p : Params} (hp : p.legal = true) : (State.resetOf p).Inv := by
  refine ⟨hp, ⟨Nat.zero_le 7, fun hpos => absurd rfl hpos, fun herr => absurd rfl herr⟩,
    ⟨rfl, rfl, rfl, rfl, Nat.zero_le _⟩, ⟨rfl, ?_⟩, fun _ => ⟨rfl, rfl, rfl, rfl, rfl⟩⟩
  simp [State.resetOf, Internals.init, RsScratch.init]

/-- A host write keeps `IBUF` canonical, with existing cells only (R18). -/
theorem inv_writeIbuf {s : State} (h : s.Inv) {i : Nat} (hi : i < s.cfg.bufsz) (v : Byte) : (s.writeIbuf i v).Inv := by
  obtain ⟨hlegal, hstatus, ⟨hwf, hbelow, hobuf⟩, hinner, hidle⟩ := h
  exact ⟨hlegal, hstatus, ⟨Memory.wf_write _ i v hwf, Memory.below_write _ _ i v hi hbelow, hobuf⟩, hinner, hidle⟩

/-- An access inside the index ranges keeps the invariant. -/
theorem inv_access {s t : State} {a : HostAction} (hs : s.Inv) (ha : a.inRange s.cfg = true)
    (h : s.access a = .next t) : t.Inv := by
  obtain ⟨ans, d, rfl⟩ | ⟨i, v, rfl, rfl⟩ | ⟨v, rfl, rfl⟩ | ⟨w, rfl, hw⟩ | ⟨rfl, rfl⟩ := access_next_cases h
  · exact hs
  · exact inv_writeIbuf hs (of_decide_eq_true ha) v
  · exact hs
  · exact inv_writeCmd hs.bodyOk hw
  · obtain ⟨hlegal, -⟩ := hs
    exact inv_resetOf hlegal

/-- Settles O43: `inv_resetOf`, for the default parameters too. -/
theorem resetMeetsTheInvariant : Obligations.ResetMeetsTheInvariant :=
  ⟨inv_resetOf rfl, fun _ => inv_resetOf⟩

/-- Settles O44: an idle step leaves the state, any other is an access. -/
theorem stepKeepsTheInvariant : Obligations.StepKeepsTheInvariant := by
  intro s t hs h
  obtain ⟨-, rfl⟩ | ⟨a, rest, -, ha, hacc⟩ := step_next_cases s t h
  · exact hs
  · exact inv_access (s := s.issue rest) hs ha hacc

/-! ### Runs (R39, R169) -/

theorem run_succ {s t : State} (h : step s = .next t) (k : ℕ) :
    Host.Core.run core (k + 1) s = Host.Core.run core k t := by
  have hstep : core.step s = .next t := h
  simp only [Host.Core.run, hstep]

/-- No access touches the list of those to come. -/
theorem access_keeps_pending {s t : State} {a : HostAction} (h : s.access a = .next t) : t.pending = s.pending := by
  obtain ⟨ans, d, rfl⟩ | ⟨i, v, rfl, rfl⟩ | ⟨v, rfl, rfl⟩ | ⟨w, rfl, hw⟩ | ⟨rfl, rfl⟩ := access_next_cases h
  case inr.inr.inr.inl =>
    obtain ⟨-, -, -, -, -, -, hpending, -⟩ := writeCmd_frame hw
    exact hpending
  all_goals rfl

/-- A list of accesses in range is served one a step; what issuing an access and doing any of the list keeps holds at
its end. The number `k` of further steps lets a run be taken apart at any place. -/
theorem run_accesses {P : State → Prop} (hissue : ∀ s rest, P s → P (s.issue rest)) {mid : List HostAction}
    (haccess : ∀ a ∈ mid, ∀ s t, s.access a = .next t → P s → P t) {s : State} {rest : List HostAction}
    (hpending : s.pending = mid ++ rest) (hrange : ∀ a ∈ mid, a.inRange s.cfg = true) (hs : P s) :
    ∃ t : State, (∀ k, Host.Core.run core (mid.length + k) s = Host.Core.run core k t) ∧ t.pending = rest ∧
      t.cfg = s.cfg ∧ P t := by
  induction mid generalizing s with
  | nil => exact ⟨s, fun k => by rw [List.length_nil, Nat.zero_add], hpending, rfl, hs⟩
  | cons a mid ih =>
    simp only [List.forall_mem_cons] at haccess hrange
    obtain ⟨ha, hmid⟩ := haccess
    obtain ⟨hra, hrmid⟩ := hrange
    obtain ⟨u, hu⟩ := (s.issue (mid ++ rest)).access_goes_on a
    have hstep : step s = .next u := (step_of_inRange s a _ hpending hra).trans hu
    have hcfg : u.cfg = s.cfg := step_keeps_cfg hstep
    obtain ⟨t, hrun, htpending, htcfg, ht⟩ := ih hmid (s := u) (access_keeps_pending hu) (hcfg ▸ hrmid)
      (ha _ u hu (hissue s _ hs))
    refine ⟨t, fun k => ?_, htpending, htcfg.trans hcfg, ht⟩
    rw [List.length_cons, Nat.succ_add, run_succ hstep, hrun]

/-- The pending accesses of a list are in range, when all are. -/
theorem State.InRange.forall_mem {s : State} (h : s.InRange) : ∀ a ∈ s.pending, a.inRange s.cfg = true :=
  List.all_eq_true.mp h

/-- Settles O45: `run_accesses` on the whole list. -/
theorem inRangeAccessesAreAllServed : Obligations.InRangeAccessesAreAllServed := by
  intro s hs
  obtain ⟨t, hrun, hpending, hcfg, -⟩ := run_accesses (P := fun _ => True) (fun _ _ h => h) (fun _ _ _ _ _ h => h)
    (List.append_nil s.pending).symm hs.forall_mem trivial
  exact ⟨t, hrun 0, hpending, hcfg⟩

/-- An access that does not touch an `IBUF` cell leaves it: commands write no cell of `IBUF` (R18). -/
theorem access_keeps_ibuf {s t : State} {a : HostAction} {i : ℕ} (ha : touchesIbuf i a = false)
    (h : s.access a = .next t) : t.ibuf.read i = s.ibuf.read i := by
  obtain ⟨ans, d, rfl⟩ | ⟨j, v, rfl, rfl⟩ | ⟨v, rfl, rfl⟩ | ⟨w, rfl, hw⟩ | ⟨rfl, rfl⟩ := access_next_cases h
  · rfl
  · have hji : j ≠ i := of_decide_eq_false ha
    rw [State.writeIbuf_ibuf, Memory.read_write, if_neg hji.symm]
  · rfl
  · obtain ⟨-, -, -, hibuf, -⟩ := writeCmd_frame hw
    rw [hibuf]
  · cases ha

/-- Settles O46: the value is listed after the write, `run_accesses` keeps it, and the read gives it. -/
theorem ibufReadReturnsTheLastWrite : Obligations.IbufReadReturnsTheLastWrite := by
  intro s i v mid rest hs hpending hmid
  have hrange := hs.forall_mem
  simp only [hpending, List.forall_mem_cons, List.forall_mem_append] at hrange
  obtain ⟨hwrite, hrmid, hread, -⟩ := hrange
  have hstep := step_of_inRange s _ _ hpending hwrite
  obtain ⟨t, hrun, htpending, htcfg, ht⟩ := run_accesses (P := fun t => t.ibuf.read i = some v) (fun _ _ h => h)
    (fun a ha _ _ hacc h => (access_keeps_ibuf (by simpa using List.all_eq_true.mp hmid a ha) hacc).trans h)
    (s := (s.issue (mid ++ .memRead .ibuf i :: rest)).writeIbuf i v) rfl hrmid (by simp [Memory.read_write])
  have hlast := step_of_inRange t _ _ htpending (by rw [htcfg]; exact hread)
  refine ⟨(t.issue rest).reply (.cell ((t.issue rest).ibufCell i)), ?_, ?_, rfl⟩
  · exact (run_succ hstep _).trans ((hrun 1).trans (run_succ hlast 0))
  · rw [State.reply_answer, State.ibufCell_eq, State.issue_ibuf, ht, Option.getD_some]

/-- Settles O47: `run_accesses` keeps what no access but a write to `CMD` and reset changes. -/
theorem resultsStayUntilTheNextCommand : Obligations.ResultsStayUntilTheNextCommand := by
  intro s j b mid rest hs hj hpending hmid
  have hrange := hs.forall_mem
  simp only [hpending, List.forall_mem_cons, List.forall_mem_append] at hrange
  obtain ⟨hrmid, hread, -⟩ := hrange
  obtain ⟨t, hrun, htpending, htcfg, hobuf, herr, herrpos, holen⟩ := run_accesses
    (P := fun t => t.obuf = s.obuf ∧ t.err = s.err ∧ t.errpos = s.errpos ∧ t.olen = s.olen) (fun _ _ h => h)
    (fun a ha u t hacc h => by
      obtain ⟨-, -, herr, herrpos, holen, hobuf⟩ :=
        access_keeps_result (by simpa using List.all_eq_true.mp hmid a ha) hacc
      rwa [hobuf, herr, herrpos, holen])
    hpending hrmid ⟨rfl, rfl, rfl, rfl⟩
  have hlast := step_of_inRange t _ _ htpending (by rw [htcfg]; exact hread)
  rw [access_memRead_obuf, readObuf_of_specified (by rw [State.issue_obuf, hobuf, hj])] at hlast
  refine ⟨(t.issue rest).reply (.cell b), ?_, rfl, hobuf, ?_, ?_, rfl⟩
  · exact (hrun 1).trans (run_succ hlast 0)
  · simp [State.readReg_status, herr, herrpos]
  · simp [State.readReg_olen, holen]

/-! ### Loading a sequence (R51) -/

/-- Writing a sequence from cell `k` on, one cell a step, puts it there and changes nothing else. -/
theorem run_writeCellsFrom {cells : List Byte} {k : ℕ} {s : State} {rest : List HostAction}
    (hpending : s.pending = writeCellsFrom k cells ++ rest) (hfit : k + cells.length ≤ s.cfg.bufsz) :
    ∃ t : State, (∀ l, Host.Core.run core (cells.length + l) s = Host.Core.run core l t) ∧
      t = { s with ibuf := t.ibuf, pending := rest, answer := t.answer } ∧
      ∀ j, t.ibufCell j = if k ≤ j ∧ j < k + cells.length then cells.getD (j - k) 0 else s.ibufCell j := by
  induction cells generalizing k s with
  | nil =>
    obtain rfl : s.pending = rest := hpending
    exact ⟨s, fun l => by rw [List.length_nil, Nat.zero_add], rfl, fun j => (if_neg (by simp)).symm⟩
  | cons b cells ih =>
    rw [List.length_cons] at hfit
    have hstep := step_of_inRange s _ _ hpending (by simp [HostAction.inRange]; omega)
    obtain ⟨t, hrun, ht, hcells⟩ := ih (k := k + 1)
      (s := (s.issue (writeCellsFrom (k + 1) cells ++ rest)).writeIbuf k b) rfl (by simp; omega)
    refine ⟨t, fun l => ?_, ht, fun j => ?_⟩
    · rw [List.length_cons, Nat.succ_add, run_succ hstep]
      exact hrun l
    · rw [hcells, State.ibufCell_writeIbuf, List.length_cons]
      obtain hlt | rfl | hgt := Nat.lt_trichotomy j k
      · rw [if_neg (by omega), if_neg (by omega), if_neg (by omega)]
        rfl
      · simp
      · obtain ⟨d, rfl⟩ := Nat.exists_eq_add_of_lt hgt
        have hd : k + d + 1 - k = d + 1 := by omega
        have hd' : k + d + 1 - (k + 1) = d := by omega
        have hiff : (k + 1 ≤ k + d + 1 ∧ k + d + 1 < k + 1 + cells.length) ↔
            (k ≤ k + d + 1 ∧ k + d + 1 < k + (cells.length + 1)) := by omega
        rw [if_neg (show k + d + 1 ≠ k by omega), hd, hd', List.getD_cons_succ]
        simp only [hiff]
        rfl

/-- Settles O16: the cells by `run_writeCellsFrom`, and then the write of `ILEN`. -/
theorem loadPutsTheSequenceIntoTheBuffer : Obligations.LoadPutsTheSequenceIntoTheBuffer := by
  intro s cells hlegal hfit
  have hpending : (s.withLine (.loadBytes cells)).pending =
      writeCellsFrom 0 cells ++ (.regWrite 2 (BitVec.ofNat 32 cells.length) :: s.pending) :=
    List.append_assoc _ _ _
  obtain ⟨t, hrun, ht, hcells⟩ := run_writeCellsFrom hpending ((Nat.zero_add _).trans_le hfit)
  have hlast := step_of_inRange t (.regWrite 2 (BitVec.ofNat 32 cells.length)) s.pending (by rw [ht]) rfl
  have hlength : ((BitVec.ofNat 32 cells.length).extractLsb' 0 16).toNat = cells.length := by
    have hbuf := bufsz_lt_of_legal hlegal
    simp
    omega
  refine ⟨(t.issue s.pending).writeIlen (BitVec.ofNat 32 cells.length), ?_, ?_, hlength, rfl,
    (congrArg State.cfg ht :), (congrArg State.opc ht :), (congrArg State.err ht :), (congrArg State.errpos ht :),
    (congrArg State.olen ht :), (congrArg State.obuf ht :), (congrArg State.commanded ht :), fun i hi => ?_⟩
  · exact (hrun 1).trans (run_succ hlast 0)
  · refine List.ext_getElem (by simp) fun i hi hi' => ?_
    simp only [State.input, List.getElem_map, List.getElem_range]
    exact (hcells i).trans (by simp [hi'])
  · exact (hcells i).trans (if_neg (by omega))

end Sys2Proof.Machine

namespace Sys2Proof.Machine

/-! PROOFS. The Hamming code on two flips: the syndrome names a third position (R65). -/

/-- The exclusive or of two different 1-indexed positions is again such a position, and neither of the two. -/
theorem exists_xor_positions_eq : ∀ q < 7, ∀ p < q, ∃ k < 7, (p + 1) ^^^ (q + 1) = k + 1 ∧ k ≠ p ∧ k ≠ q := by
  decide

theorem hamSyndrome_flipAt_flipAt_hamEncode {d : List Bool} (hd : d.length = 4) {p q : ℕ} (hp : p < 7) (hq : q < 7) :
    hamSyndrome (flipAt (flipAt (hamEncode d) p) q) = (p + 1) ^^^ (q + 1) := by
  rw [hamSyndrome_flipAt (by simp) hq, hamSyndrome_flipAt (by simp) hp, hamSyndrome_hamEncode hd, Nat.zero_xor]

/-- Three flips at different positions give another word: the first of them shows. -/
theorem flipAt_flipAt_flipAt_ne {e : List Bool} {p q k : ℕ} (hp : p < e.length) (hq : q < e.length) (hk : k < e.length)
    (hqp : q ≠ p) (hkp : k ≠ p) : flipAt (flipAt (flipAt e p) q) k ≠ e := by
  intro h
  have hbit := congrArg (bitAt · p) h
  simp [bitAt_flipAt (e := flipAt (flipAt e p) q) (by simpa using hk),
    bitAt_flipAt (e := flipAt e p) (by simpa using hq), bitAt_flipAt hp, hqp, hkp] at hbit

/-- Settles O26: the decoder flips a third bit, so the codeword it ends at is another one. -/
theorem hamDecMiscorrectsDoubleErrors : Obligations.HamDecMiscorrectsDoubleErrors := by
  intro s d p q hd hpq hq hilen hinput
  obtain ⟨k, hk, hxor, hkp, hkq⟩ := exists_xor_positions_eq q hq p hpq
  have hsyn := hamSyndrome_flipAt_flipAt_hamEncode hd (hpq.trans hq) hq
  have hlen : (flipAt (flipAt (hamEncode d) p) q).length = 7 := by simp
  have hcodeword := hamSyndrome_hamFlip hlen
  rw [hamSyndrome_eq_zero_iff (by rw [hsyn, hxor, hamFlip_succ]; simp), hsyn, hxor, hamFlip_succ] at hcodeword
  refine ⟨⟨hamData (flipAt (flipAt (flipAt (hamEncode d) p) q) k), rfl, fun hdata => ?_, ?_⟩, by omega, by omega,
    by omega⟩
  · rw [hdata] at hcodeword
    exact flipAt_flipAt_flipAt_ne (by simp; omega) (by simpa) (by simpa) hpq.ne' hkp hcodeword.symm
  · rw [exec_hamDec_of_bits hilen hinput, hamCorrect_eq, hsyn, hxor, hamFlip_succ]

end Sys2Proof.Machine

namespace Sys2Proof.Machine

/-! PROOFS. The bits of a convolutional codeword as the two generators; and the distance and the tie rule of the Viterbi
decoder on a word with an error in its last segment (R70, R76, R83). -/

/-! ### The bits of a convolutional codeword (R70, R72) -/

theorem bitAt_append_left {a : List Bool} {i : ℕ} (h : i < a.length) (c : List Bool) :
    bitAt (a ++ c) i = bitAt a i := List.getD_append a c false i h

theorem bitAt_append_right (a c : List Bool) (i : ℕ) : bitAt (a ++ c) (a.length + i) = bitAt c i := by
  rw [bitAt, List.getD_append_right _ _ _ _ (Nat.le_add_right _ _), Nat.add_sub_cancel_left, bitAt]

/-- One more message bit changes no earlier one. -/
theorem bitBefore_concat (m : List Bool) (b : Bool) {i k : ℕ} (h : i < m.length + k) :
    bitBefore (m ++ [b]) i k = bitBefore m i k := by
  rw [bitBefore, bitBefore]
  split
  · exact bitAt_append_left (by omega) [b]
  · rfl

/-- After a message the register holds its last two bits (R21, R72). -/
theorem convFinal_eq (m : List Bool) : convFinal m = ⟨bitBefore m m.length 1, bitBefore m m.length 2⟩ := by
  induction m using List.reverseRecOn with
  | nil => rfl
  | append_singleton m b ih =>
    have hlast : bitBefore (m ++ [b]) (m.length + 1) 1 = b := by simp [bitBefore, bitAt]
    have hprev : bitBefore (m ++ [b]) (m.length + 1) 2 = bitBefore m m.length 1 := by
      rw [bitBefore_concat m b (by omega)]
      simp [bitBefore]
    rw [convFinal_concat, ih, List.length_append, List.length_singleton, hlast, hprev, convNext]

/-- The two output bits of message bit `i` are the exclusive ors that the generators 111 and 101 name (R70). -/
theorem bitAt_convEncode (m : List Bool) {i : ℕ} (hi : i < m.length) :
    bitAt (convEncode m) (2 * i) = (bitAt m i ^^ bitBefore m i 1 ^^ bitBefore m i 2) ∧
      bitAt (convEncode m) (2 * i + 1) = (bitAt m i ^^ bitBefore m i 2) := by
  induction m using List.reverseRecOn with
  | nil => simp at hi
  | append_singleton m b ih =>
    rw [convEncode_concat, bitBefore_concat m b (by simp at hi; omega), bitBefore_concat m b (by simp at hi; omega)]
    have hlen := convEncode_length m
    obtain hi | rfl : i < m.length ∨ i = m.length := by simp at hi; omega
    · rw [bitAt_append_left hi, bitAt_append_left (i := 2 * i) (by omega),
        bitAt_append_left (i := 2 * i + 1) (by omega)]
      exact ih hi
    · have hlast : bitAt (m ++ [b]) m.length = b := by simp [bitAt]
      rw [← hlen, hlast]
      refine ⟨(bitAt_append_right _ _ 0).trans ?_, (bitAt_append_right _ _ 1).trans ?_⟩ <;>
        simp [bitAt, convOut, convFinal_eq]

/-- Settles O28: the result by `exec_of_input_eq_cellsOf`, its bits by `bitAt_convEncode`. -/
theorem convEncWritesBothGenerators : Obligations.ConvEncWritesBothGenerators := by
  refine ⟨fun s m hmin hmax hilen hinput => ?_, fun _ _ => exec_err_of_ne_rsDec (by decide), rfl⟩
  have hlen : commandLength .convEnc s.cfg m.length = true := by simp [commandLength, convEncLength, hmin, hmax]
  refine ⟨convEncode m, convEncode_length m, fun i hi => bitAt_convEncode m hi, ?_⟩
  rw [exec_of_input_eq_cellsOf rfl hilen hlen hinput, ← convFinal_eq]
  simp [commandCompute, convEncCompute, State.succeed]

/-! ### The distance of two codewords (R80, R83) -/

theorem flipAt_append_right (a c : List Bool) (j : ℕ) : flipAt (a ++ c) (a.length + j) = a ++ flipAt c j := by
  induction a with
  | nil => simp
  | cons x a ih =>
    rw [List.length_cons, Nat.succ_add]
    simpa [flipAt] using ih

/-- The codewords of two messages of one length differ in two bits at least: both outputs change at the first message
bit that does. -/
theorem two_le_bitDistance_convEncodeFrom (st : ConvState) {m m' : List Bool} (hlen : m.length = m'.length)
    (hne : m ≠ m') : 2 ≤ bitDistance (convEncodeFrom st m) (convEncodeFrom st m') := by
  induction m generalizing st m' with
  | nil => exact absurd (List.length_eq_zero_iff.mp hlen.symm).symm hne
  | cons b m ih =>
    cases m' with
    | nil => simp at hlen
    | cons b' m' =>
      by_cases hb : b = b'
      · subst hb
        simpa [convEncodeFrom, bitDistance] using ih (convNext st b) (by simpa using hlen) (by simpa using hne)
      · have hfirst : (b ^^ st.s0 ^^ st.s1) ≠ (b' ^^ st.s0 ^^ st.s1) := by simpa using hb
        have hsecond : (b ^^ st.s1) ≠ (b' ^^ st.s1) := by simpa using hb
        simp only [convEncodeFrom, convOut, bitDistance, if_neg hfirst, if_neg hsecond]
        omega

/-- The outputs of the two transitions out of a state are complementary, so one flip of either pair is at distance 1
from both. -/
theorem bitDistance_convOut_flipAt (st : ConvState) (b x : Bool) {j : ℕ} (hj : j < 2) :
    bitDistance [(convOut st x).1, (convOut st x).2] (flipAt [(convOut st b).1, (convOut st b).2] j) = 1 := by
  obtain ⟨p, q⟩ := st
  interval_cases j <;> revert p q b x <;> decide

/-- The codeword of `m' ++ [x]` against that of `m ++ [b]` with a bit of its last segment flipped. -/
theorem bitDistance_flipAt_last {m m' : List Bool} (hlen : m'.length = m.length) (b x : Bool) (j : ℕ) :
    bitDistance (convEncode (m' ++ [x])) (flipAt (convEncode (m ++ [b])) (2 * m.length + j)) =
      bitDistance (convEncode m') (convEncode m) +
        bitDistance [(convOut (convFinal m') x).1, (convOut (convFinal m') x).2]
          (flipAt [(convOut (convFinal m) b).1, (convOut (convFinal m) b).2] j) := by
  rw [convEncode_concat, convEncode_concat, ← convEncode_length m, flipAt_append_right,
    bitDistance_append (by simp [hlen])]

/-! ### The tie rule of the final scan (R76) -/

/-- One state of the scan of R76: the best so far stays, or the state takes its place and is strictly better. -/
theorem betterOf_eq_or_lt (m : Metrics) (best st : ConvState) :
    betterOf m best st = best ∨
      betterOf m best st = st ∧ ∀ a, m.get best = some a → ∃ c, m.get st = some c ∧ c < a := by
  cases hst : m.get st <;> cases hbest : m.get best <;> simp only [betterOf, hst, hbest]
  case none.none | none.some => exact .inl trivial
  case some.none => exact .inr ⟨trivial, by simp⟩
  case some.some c a =>
    by_cases hlt : c < a
    · exact .inr ⟨if_pos hlt, fun _ ha => ⟨c, rfl, Option.some.inj ha ▸ hlt⟩⟩
    · exact .inl (if_neg hlt)

/-- A scan of R76 keeps what it began with, or ends with a later state that is strictly better. -/
theorem foldl_betterOf_eq_or_lt (m : Metrics) (l : List ConvState) (best : ConvState) :
    l.foldl (betterOf m) best = best ∨
      l.foldl (betterOf m) best ∈ l ∧
        ∀ a, m.get best = some a → ∃ c, m.get (l.foldl (betterOf m) best) = some c ∧ c < a := by
  induction l generalizing best with
  | nil => exact .inl rfl
  | cons st l ih =>
    rw [List.foldl_cons]
    obtain hold | ⟨hnew, hlt⟩ := betterOf_eq_or_lt m best st
    · rw [hold]
      exact (ih best).imp_right fun ⟨hmem, h⟩ => ⟨List.mem_cons_of_mem _ hmem, h⟩
    · rw [hnew]
      obtain hkeep | ⟨hmem, h⟩ := ih st
      · rw [hkeep]
        exact .inr ⟨List.mem_cons_self, hlt⟩
      · refine .inr ⟨List.mem_cons_of_mem _ hmem, fun a ha => ?_⟩
        obtain ⟨c, hc, hca⟩ := hlt a ha
        obtain ⟨c', hc', hlt'⟩ := h c hc
        exact ⟨c', hc', hlt'.trans hca⟩

/-- The states with last input bit 0 are scanned first, so one with last input bit 1 is final only when it is strictly
better than all of them. -/
theorem lt_of_bestState_s0 {m : Metrics} {st : ConvState} {a : ℕ} (hbest : (bestState m).s0 = true)
    (hst : st.s0 = false) (ha : m.get st = some a) : ∃ c, m.get (bestState m) = some c ∧ c < a := by
  obtain ⟨x, y⟩ := st
  subst hst
  have hmem : (⟨false, y⟩ : ConvState) ∈ [(⟨false, false⟩ : ConvState), ⟨false, true⟩] := by cases y <;> simp
  obtain ⟨w, hw, hle⟩ := foldl_refBetter_le (P := pathsOf m []) (best := (pathsOf m []).get convStart)
    (.inr ⟨_, hmem, (pathsOf_get m [] _).trans (congrArg (Option.map _) ha)⟩)
  rw [foldl_refBetter_pathsOf, pathsOf_get, Option.map_eq_some_iff] at hw
  obtain ⟨c, hc, rfl⟩ := hw
  have hsplit : bestState m = [(⟨true, false⟩ : ConvState), ⟨true, true⟩].foldl (betterOf m)
      ([(⟨false, false⟩ : ConvState), ⟨false, true⟩].foldl (betterOf m) convStart) := rfl
  obtain hkeep | ⟨-, hlt⟩ := foldl_betterOf_eq_or_lt m [⟨true, false⟩, ⟨true, true⟩]
    ([(⟨false, false⟩ : ConvState), ⟨false, true⟩].foldl (betterOf m) convStart)
  · exfalso
    rw [hsplit, hkeep] at hbest
    obtain h | ⟨h, -⟩ := foldl_betterOf_eq_or_lt m [⟨false, false⟩, ⟨false, true⟩] convStart
    · rw [h] at hbest
      cases hbest
    · simp only [List.mem_cons, List.not_mem_nil, or_false] at h
      rcases h with h | h <;> rw [h] at hbest <;> cases hbest
  · obtain ⟨c', hc', hlt⟩ := hlt c hc
    exact ⟨c', hsplit ▸ hc', hlt.trans_le hle⟩

/-- When some nearest message ends in 0, so does the decoded one. -/
theorem convFinal_viterbi_s0 {r m : List Bool} (hm : m.length = (segments r).length) (hlast : (convFinal m).s0 = false)
    (hnear : messageDistance (segments r) m ≤ messageDistance (segments r) (viterbi r)) :
    (convFinal (viterbi r)).s0 = false := by
  obtain ⟨hbest, -⟩ := viterbi_nearest r
  have hpaths := foldl_refStep_segments r ▸ survivors_foldl_refStep (segments r)
  obtain ⟨-, hfinal, -⟩ := hpaths.sound (st := bestState (viterbiForward metricsStart (segments r)).1)
    (c := messageDistance (segments r) (viterbi r)) (path := viterbi r) (by rw [pathsOf_get, hbest]; rfl)
  obtain ⟨x, hx, hxle⟩ := hpaths.nearest hm
  rw [pathsOf_get, Option.map_eq_some_iff] at hx
  obtain ⟨a, ha, rfl⟩ := hx
  rw [hfinal, ← Bool.not_eq_true]
  intro htrue
  obtain ⟨c, hc, hlt⟩ := lt_of_bestState_s0 htrue hlast ha
  obtain rfl := Option.some.inj (hc.symm.trans hbest)
  exact absurd (hlt.trans_le hxle) (not_lt.mpr hnear)

/-- Settles O31: both messages with the right first bits are at distance 1 and every other one is farther, and of two
equally near ones the scan of R76 keeps the one that ends in 0. -/
theorem lastSegmentErrorClearsTheLastBit : Obligations.LastSegmentErrorClearsTheLastBit := by
  intro m b j hj
  set r := flipAt (convEncode (m ++ [b])) (2 * m.length + j) with hr
  have hlen : r.length = 2 * (m.length + 1) := by simp [hr, flipAt]
  have heven : r.length % 2 = 0 := by omega
  have hzero : messageDistance (segments r) (m ++ [false]) = 1 := by
    rw [messageDistance_segments heven, hr, bitDistance_flipAt_last rfl b false j, bitDistance_convOut_flipAt _ _ _ hj,
      (bitDistance_eq_zero_iff rfl).mpr rfl]
  obtain ⟨-, hnearest⟩ := viterbi_nearest r
  have hsegs : (m ++ [false]).length = (segments r).length := by simp [segments_length, hlen]
  have hle := hnearest _ hsegs
  have hvlen : (viterbi r).length = m.length + 1 := by rw [viterbi_length]; omega
  obtain hnil | ⟨v, x, hv⟩ := List.eq_nil_or_concat' (viterbi r)
  · simp [hnil] at hvlen
  have hvm : v.length = m.length := by simpa [hv] using hvlen
  rw [hv, hzero, messageDistance_segments heven, hr, bitDistance_flipAt_last hvm b x j] at hle
  obtain rfl : v = m := by
    by_contra hne
    have hfar := two_le_bitDistance_convEncodeFrom convStart hvm hne
    exact absurd (le_of_add_le_left hle) (not_le.mpr hfar)
  have hnear : messageDistance (segments r) (v ++ [false]) ≤ messageDistance (segments r) (viterbi r) := by
    rw [hzero, hv, messageDistance_segments heven, hr, bitDistance_flipAt_last rfl b x j,
      bitDistance_convOut_flipAt _ _ _ hj]
    exact Nat.le_add_left _ _
  have hlast := convFinal_viterbi_s0 hsegs (by simp [convNext]) hnear
  rw [hv, convFinal_concat] at hlast
  rw [hv, show x = false from hlast]

end Sys2Proof.Machine

namespace Sys2Proof.Machine

/-! PROOFS. The generator polynomial and the systematic encoder: Horner's rule over sums and products of sequences, the
generator as the product of its factors, and the feedback shift register as division by it (R91 to R97, R105 to R107);
and what of the decoder follows from the encoder giving a codeword (R116). -/

section

variable {F : Type} [Field F] {ι : Byte → F}

/-! ### Horner's rule on the sequences of the generator and of the register (R96, R97, R107) -/

theorem IsSymbolField.map_polyEval_singleton (hι : IsSymbolField ι) (a x : Byte) : ι (polyEval [a] x) = ι a := by
  simp [hι.map_polyEval]

theorem IsSymbolField.map_polyEval_replicate_zero (hι : IsSymbolField ι) (n : ℕ) (x : Byte) :
    ι (polyEval (List.replicate n 0) x) = 0 := by
  rw [hι.map_polyEval]
  refine Finset.sum_eq_zero fun p hp => ?_
  have hp : p < n := by simpa using hp
  simp [hp, hι.map_zero]

theorem IsSymbolField.map_polyEval_append (hι : IsSymbolField ι) (c d : List Byte) (x : Byte) :
    ι (polyEval (c ++ d) x) = ι (polyEval c x) * ι x ^ d.length + ι (polyEval d x) := by
  induction d using List.reverseRecOn with
  | nil => simp [polyEval_nil, hι.map_zero]
  | append_singleton d b ih =>
    rw [← List.append_assoc, polyEval_concat, polyEval_concat, List.length_append, List.length_singleton]
    simp only [hι.map_xor, hι.map_gfMul, ih]
    ring

theorem IsSymbolField.map_polyEval_cons (hι : IsSymbolField ι) (a : Byte) (c : List Byte) (x : Byte) :
    ι (polyEval (a :: c) x) = ι a * ι x ^ c.length + ι (polyEval c x) := by
  rw [← List.singleton_append, hι.map_polyEval_append, hι.map_polyEval_singleton]

theorem IsSymbolField.map_polyEval_map_gfMul (hι : IsSymbolField ι) (a : Byte) (c : List Byte) (x : Byte) :
    ι (polyEval (c.map (gfMul a)) x) = ι a * ι (polyEval c x) := by
  induction c with
  | nil => simp [polyEval_nil, hι.map_zero]
  | cons b c ih =>
    rw [List.map_cons, hι.map_polyEval_cons, hι.map_polyEval_cons, ih, hι.map_gfMul, List.length_map]
    ring

/-- Highest degree first, a sum aligned at the first elements moves the shorter sequence up (R97). -/
theorem IsSymbolField.map_polyEval_polyAddLow (hι : IsSymbolField ι) {c d : List Byte} (h : c.length ≤ d.length)
    (x : Byte) :
    ι (polyEval (polyAddLow c d) x) = ι (polyEval c x) * ι x ^ (d.length - c.length) + ι (polyEval d x) := by
  induction c generalizing d with
  | nil => simp [polyAddLow, polyEval_nil, hι.map_zero]
  | cons a c ih =>
    cases d with
    | nil => simp at h
    | cons b d =>
      have h : c.length ≤ d.length := by simpa using h
      obtain ⟨k, hk⟩ := Nat.exists_eq_add_of_le h
      rw [polyAddLow, hι.map_polyEval_cons, hι.map_polyEval_cons, hι.map_polyEval_cons, ih h, polyAddLow_length,
        max_eq_right h, hι.map_xor, List.length_cons, List.length_cons, Nat.add_sub_add_right, hk,
        Nat.add_sub_cancel_left]
      ring

theorem IsSymbolField.map_polyEval_polyMul (hι : IsSymbolField ι) {c d : List Byte} (hc : c ≠ []) (hd : d ≠ [])
    (x : Byte) : ι (polyEval (polyMul c d) x) = ι (polyEval c x) * ι (polyEval d x) := by
  match c, hc with
  | [a], _ => rw [polyMul, hι.map_polyEval_map_gfMul, hι.map_polyEval_singleton]
  | a :: b :: c, _ =>
    have hlen := polyMul_length (b :: c) d (by simp) hd
    have hpos := List.length_pos_iff.mpr hd
    have hdiff : (0 :: polyMul (b :: c) d).length - (d.map (gfMul a)).length = (b :: c).length := by
      simp only [List.length_cons, List.length_map] at hlen ⊢
      omega
    rw [polyMul, hι.map_polyEval_polyAddLow (by simp only [List.length_cons, List.length_map] at hdiff ⊢; omega), hdiff,
      hι.map_polyEval_map_gfMul, hι.map_polyEval_cons 0, (hι.eq_zero_iff 0).mpr rfl, zero_mul, zero_add,
      hι.map_polyEval_polyMul (by simp) hd, hι.map_polyEval_cons a]
    ring

/-! ### The generator (R97) -/

theorem rsGenerator_ne_nil (n : ℕ) : rsGenerator n ≠ [] := List.ne_nil_of_length_eq_add_one (rsGenerator_length n)

/-- The generator is monic. -/
theorem rsGenerator_eq_cons (n : ℕ) : rsGenerator n = 1 :: (rsGenerator n).tail := by
  induction n with
  | zero => rfl
  | succ n ih =>
    rw [rsGenerator, ih]
    cases (rsGenerator n).tail with
    | nil => exact congrArg (· :: _) (gfMul_one_left 1)
    | cons b g => exact congrArg (· :: _) ((congrArg (· ^^^ 0) (gfMul_one_left 1)).trans BitVec.xor_zero)

theorem IsSymbolField.map_polyEval_rsGenerator (hι : IsSymbolField ι) (n : ℕ) (x : Byte) :
    ι (polyEval (rsGenerator n) x) = ∏ i ∈ Finset.range n, (ι x + ι (gfExp i)) := by
  induction n with
  | zero => exact (hι.map_polyEval_singleton 1 x).trans hι.map_one
  | succ n ih =>
    have hone : ι 1 = 1 := hι.map_one
    rw [rsGenerator, hι.map_polyEval_polyMul (rsGenerator_ne_nil n) (by simp), ih, Finset.prod_range_succ,
      hι.map_polyEval_cons, hι.map_polyEval_singleton, hone, List.length_singleton, pow_one, one_mul]

theorem IsSymbolField.map_foldl_gfMul (hι : IsSymbolField ι) (f : ℕ → Byte) (n : ℕ) :
    ι ((List.range n).foldl (fun y i => gfMul y (f i)) 1) = ∏ i ∈ Finset.range n, ι (f i) := by
  induction n with
  | zero => exact hι.map_one
  | succ n ih =>
    rw [List.range_succ, List.foldl_append, List.foldl_cons, List.foldl_nil, hι.map_gfMul, ih, Finset.prod_range_succ]

/-- At a root of the generator its lower terms sum to its leading power. -/
theorem IsSymbolField.map_polyEval_tail_rsGenerator (hι : IsSymbolField ι) {n j : ℕ} (hj : j < n) :
    ι (polyEval (rsGenerator n).tail (gfExp j)) = ι (gfExp j) ^ n := by
  have hroot : ι (polyEval (rsGenerator n) (gfExp j)) = 0 := by
    rw [hι.map_polyEval_rsGenerator]
    exact Finset.prod_eq_zero (Finset.mem_range.mpr hj) (hι.add_self _)
  have hone : ι 1 = 1 := hι.map_one
  rw [rsGenerator_eq_cons, hι.map_polyEval_cons, List.length_tail, rsGenerator_length, Nat.add_sub_cancel, hone,
    one_mul] at hroot
  rw [eq_neg_of_add_eq_zero_right hroot, hι.neg_eq]

/-! ### The feedback shift register (R107) -/

theorem IsSymbolField.map_polyEval_zipWith (hι : IsSymbolField ι) {c d : List Byte} (h : c.length = d.length)
    (a x : Byte) :
    ι (polyEval (List.zipWith (fun next e => next ^^^ gfMul e a) c d) x) =
      ι (polyEval c x) + ι (polyEval d x) * ι a := by
  induction c generalizing d with
  | nil =>
    obtain rfl := List.length_eq_zero_iff.mp h.symm
    simp [polyEval_nil, hι.map_zero]
  | cons b c ih =>
    cases d with
    | nil => simp at h
    | cons e d =>
      have h : c.length = d.length := by simpa using h
      simp only [List.zipWith_cons_cons, hι.map_polyEval_cons, ih h, hι.map_xor, hι.map_gfMul, List.length_zipWith, h,
        min_self]
      ring

/-- One message symbol through the register: multiplication by `x` and the new symbol, modulo the generator. `x` is a
root of the generator, whose lower terms are `g`. -/
theorem IsSymbolField.map_polyEval_parityStep (hι : IsSymbolField ι) {g par : List Byte} (hlen : par.length = g.length)
    (hpos : 0 < g.length) {x : Byte} (hroot : ι (polyEval g x) = ι x ^ g.length) (m : Byte) :
    ι (polyEval (parityStep g par m) x) = ι (polyEval par x) * ι x + ι m * ι x ^ g.length := by
  cases par with
  | nil => simp at hlen; omega
  | cons h par =>
    have hlen : par.length + 1 = g.length := by simpa using hlen
    have hshift : (par ++ [0]).length = g.length := by simpa using hlen
    simp only [parityStep, List.headD_cons, List.tail_cons]
    rw [hι.map_polyEval_zipWith hshift, hroot, hι.map_polyEval_append, hι.map_polyEval_singleton, hι.map_polyEval_cons,
      (hι.eq_zero_iff 0).mpr rfl, hι.map_xor, ← hlen, List.length_singleton]
    ring

theorem IsSymbolField.map_polyEval_foldl_parityStep (hι : IsSymbolField ι) {g par : List Byte}
    (hlen : par.length = g.length) (hpos : 0 < g.length) {x : Byte} (hroot : ι (polyEval g x) = ι x ^ g.length)
    (m : List Byte) :
    ι (polyEval (m.foldl (parityStep g) par) x) =
      ι (polyEval par x) * ι x ^ m.length + ι (polyEval m x) * ι x ^ g.length := by
  induction m using List.reverseRecOn with
  | nil => simp [polyEval_nil, hι.map_zero]
  | append_singleton m b ih =>
    rw [List.foldl_concat, hι.map_polyEval_parityStep (foldl_parityStep_length g m par hlen) hpos hroot, ih,
      polyEval_concat, hι.map_xor, hι.map_gfMul, List.length_append, List.length_singleton]
    ring

end

/-- The encoder gives a codeword: the register holds the remainder of the message times `x^NSYM` (R106, R107). -/
theorem isCodeword_rsEncode {nsym : ℕ} (hpos : 1 ≤ nsym) (m : List Byte) :
    isCodeword nsym (rsEncode nsym m) = true := by
  obtain ⟨F, _, ι, hι⟩ := exists_isSymbolField
  have hg : (rsGenerator nsym).tail.length = nsym := by simp [rsGenerator_length]
  refine (isCodeword_iff nsym _).mpr fun j hj => (hι.eq_zero_iff _).mp ?_
  have hpar := hι.map_polyEval_foldl_parityStep (g := (rsGenerator nsym).tail) (par := List.replicate nsym 0)
    (by simp [hg]) (by omega) (by rw [hg]; exact hι.map_polyEval_tail_rsGenerator hj) m
  rw [hι.map_polyEval_replicate_zero, zero_mul, zero_add, hg] at hpar
  rw [rsEncode, hι.map_polyEval_append, rsParity_length, rsParity, hpar, hι.add_self]

/-! ### Distances of words that agree in their message part (R108) -/

theorem symbolDistance_comm (c r : List Byte) : symbolDistance c r = symbolDistance r c := by
  induction c generalizing r with
  | nil => cases r <;> rfl
  | cons a c ih =>
    cases r with
    | nil => rfl
    | cons b r => simp only [symbolDistance, ih r, eq_comm]

theorem symbolDistance_append_left (a b b' : List Byte) : symbolDistance (a ++ b) (a ++ b') = symbolDistance b b' := by
  induction a with
  | nil => rfl
  | cons x a ih => simp [symbolDistance, ih]

theorem symbolDistance_le_length (c r : List Byte) : symbolDistance c r ≤ c.length := by
  induction c generalizing r with
  | nil => simp [symbolDistance]
  | cons a c ih =>
    cases r with
    | nil => simp [symbolDistance]
    | cons b r =>
      have := ih r
      simp only [symbolDistance, List.length_cons]
      split <;> omega

@[simp] theorem rsEncode_length (nsym : ℕ) (m : List Byte) : (rsEncode nsym m).length = m.length + nsym := by
  simp [rsEncode, rsParity_length]

/-- A codeword is the encoding of its message part: two codewords with one message part are too close to differ. -/
theorem rsEncode_take_eq {nsym : ℕ} (hpos : 1 ≤ nsym) {c : List Byte} (hc : isCodeword nsym c = true)
    (hlo : nsym ≤ c.length) (hhi : c.length ≤ 255) : rsEncode nsym (c.take (c.length - nsym)) = c := by
  have hlen : (rsEncode nsym (c.take (c.length - nsym))).length = c.length := by simp; omega
  have hnear : symbolDistance (rsEncode nsym (c.take (c.length - nsym))) c ≤ nsym :=
    calc symbolDistance (rsEncode nsym (c.take (c.length - nsym))) c
        = symbolDistance (c.take (c.length - nsym) ++ rsParity nsym (c.take (c.length - nsym)))
            (c.take (c.length - nsym) ++ c.drop (c.length - nsym)) := by rw [List.take_append_drop]; rfl
      _ = symbolDistance (rsParity nsym (c.take (c.length - nsym))) (c.drop (c.length - nsym)) :=
        symbolDistance_append_left _ _ _
      _ ≤ nsym := (symbolDistance_le_length _ _).trans_eq (rsParity_length _ _)
  by_contra hne
  exact absurd hnear
    (not_le.mpr (lt_symbolDistance_of_isCodeword hlen (hlen.trans_le hhi) (isCodeword_rsEncode hpos _) hc hne))

theorem pos_nsym_of_legal {p : Params} (hp : p.legal = true) : 1 ≤ p.nsym := by
  simp only [Params.legal, Bool.and_eq_true, decide_eq_true_eq] at hp
  omega

/-! ### The obligations -/

/-- Settles O32: the laws of the product proved on the way to the field of the symbols. -/
theorem fieldMultiplicationLaws : Obligations.FieldMultiplicationLaws :=
  ⟨fun a b c => ⟨gfMul_comm a b, gfMul_assoc a b c, gfMul_xor_right a b c⟩,
    fun a => ⟨gfMul_one_right a, gfMul_zero_right a, BitVec.xor_self⟩, by decide +kernel, by decide +kernel⟩

/-- Settles O35: the value at `x` by `map_polyEval_rsGenerator`, read in the field of the symbols. -/
theorem generatorIsTheProductOfItsFactors : Obligations.GeneratorIsTheProductOfItsFactors := by
  refine ⟨fun n => ⟨rsGenerator_length n, by rw [rsGenerator_eq_cons]; rfl, fun x => ?_⟩, by decide +kernel⟩
  obtain ⟨F, _, ι, hι⟩ := exists_isSymbolField
  refine hι.injective ?_
  rw [hι.map_polyEval_rsGenerator, hι.map_foldl_gfMul]
  exact Finset.prod_congr rfl fun i _ => (hι.map_xor x (gfExp i)).symm

/-- Settles O36: the word that the encoder writes is a codeword by `isCodeword_rsEncode`. -/
theorem rsEncWritesASystematicCodeword : Obligations.RsEncWritesASystematicCodeword := by
  refine ⟨fun s hs hlo hhi => ?_, fun _ _ => exec_err_of_ne_rsDec (by decide), rfl⟩
  have hlength : commandLength .rsEnc s.cfg s.ilen.toNat = true := by
    simp [commandLength, rsEncLength, nmax, hlo, hhi]
  refine ⟨rsParity s.cfg.nsym (s.input s.ilen.toNat), rsParity_length _ _,
    isCodeword_rsEncode (pos_nsym_of_legal hs) _, ?_⟩
  rw [exec_eq_runCommand_of, State.runCommand_valid s _ _ _ hlength rfl]
  rfl

/-- Settles O38: `RS_DEC` ends with OK only with what `rsDecode` answers, which comes from such a codeword. -/
theorem rsDecAnswersWithANearCodeword : Obligations.RsDecAnswersWithANearCodeword := by
  intro s t _ h hok
  obtain ⟨-, rfl⟩ | ⟨-, rfl⟩ := exec_next_cases h
  · cases hok
  · cases hd : (rsDecode s.cfg (s.input s.ilen.toNat)).1 with
    | none => simp [commandResult, hd] at hok
    | some m =>
      obtain ⟨c, hc, rfl⟩ := exists_closeCodeword_of_rsDecode hd
      refine ⟨c, hc, ?_⟩
      simp [commandResult, hd, State.succeed, commandCompute, rsDecCompute]

/-- Settles O40: the received word is a codeword, so it is the one within `T` of itself. -/
theorem rsRoundTripReturnsTheMessage : Obligations.RsRoundTripReturnsTheMessage := by
  intro s m hs hlo hhi hilen hinput
  obtain ⟨hclose, -⟩ := rsDecIsBoundedDistanceDecoding s hs (by omega) (by omega)
  have hc := closeCodeword_self (isCodeword_rsEncode (pos_nsym_of_legal hs) m)
  simpa [rsEncode, hilen] using hclose (rsEncode s.cfg.nsym m) (hinput ▸ hc)

/-- Settles O41: one changed symbol leaves the codeword within `T`, which is at least 1. -/
theorem rsDecCorrectsOneSymbolError : Obligations.RsDecCorrectsOneSymbolError := by
  intro s c p v hs hnsym hlo hhi hc hp hilen hinput
  obtain ⟨hclose, -⟩ := rsDecIsBoundedDistanceDecoding s hs (by omega) (by omega)
  rw [hilen, hinput] at hclose
  have ht : s.cfg.t = s.cfg.nsym / 2 := rfl
  have hdist : symbolDistance c (c.set p v) ≤ 1 := by
    simpa [symbolDistance_comm c, symbolDistance_self] using symbolDistance_set_le c c p v
  exact hclose c ⟨by simp, hc, by omega⟩

/-- Settles O42: a message that `RS_DEC` returns is the message part of a codeword within `T`, and that codeword is its
encoding, so it is not the distant one. -/
theorem rsDecNeverReturnsADistantMessage : Obligations.RsDecNeverReturnsADistantMessage := by
  intro s t m hs hlo hhi hilen hfar h
  have hpos := pos_nsym_of_legal hs
  by_cases hex : ∃ c, CloseCodeword s.cfg (s.input s.ilen.toNat) c
  · obtain ⟨c, hc⟩ := hex
    obtain ⟨hlen, hcw, hdist⟩ := id hc
    obtain ⟨hclose, -⟩ := rsDecIsBoundedDistanceDecoding s hs (by omega) (by omega)
    obtain ⟨rs, hexec⟩ := hclose c hc
    obtain rfl := Host.Outcome.next.inj (hexec.symm.trans h)
    have hlen : c.length = m.length + s.cfg.nsym := by simpa [hilen] using hlen
    have hk : s.ilen.toNat - s.cfg.nsym = c.length - s.cfg.nsym := by omega
    have henc : rsEncode s.cfg.nsym (c.take (s.ilen.toNat - s.cfg.nsym)) = c :=
      hk ▸ rsEncode_take_eq hpos hcw (by omega) (by omega)
    refine .inr ⟨c.take (s.ilen.toNat - s.cfg.nsym), ?_, by simp; omega, rfl, rfl, by rwa [henc]⟩
    rintro rfl
    rw [henc] at hfar
    omega
  · obtain ⟨-, hnone⟩ := rsDecIsBoundedDistanceDecoding s hs (by omega) (by omega)
    obtain ⟨rs, hexec⟩ := hnone hex
    obtain rfl := Host.Outcome.next.inj (hexec.symm.trans h)
    exact .inl rfl

end Sys2Proof.Machine
